-- ==== Sys2Proof/Word.lean ====
section
/-! DEFINITION. The machine's one word: a byte. Registers, memory cells, addresses, PC, SP and FL are all 8 bits wide
(spec/00_scope.md R4, spec/92_eei_decisions.md D19). -/

namespace Sys2Proof

/-- 8 bits, bit 0 the least significant (R8). Read as an unsigned number 0 to 255 everywhere (R11). -/
abbrev Byte := BitVec 8

end Sys2Proof
end

