-- ==== Sys2Proof/Config.lean ====
section
/-! DEFINITION. What the hardware fixes once and for all: the reset values (spec/10_state.md R23), the contents of
a memory cell that nothing has written, the HALT word. The spec leaves no value free
(spec/93_implementation_defined.md section 1), so no constant of this file is without a body. -/

namespace Sys2Proof.Config

/-- Every general register after reset (R23). -/
abbrev regReset : Byte := 0#8

/-- PC after reset, the entry point (R14, R23, R36). -/
abbrev pcReset : Byte := 0#8

/-- SP after reset: the top of memory (R17, R23). -/
abbrev spReset : Byte := 255#8

/-- FL after reset: no flag set (R18, R23; the spec's decision D4, log entry 10). -/
abbrev flReset : Byte := 0#8

/-- What a memory cell reads as that nothing has written since reset (R23, R41; the spec's decision D14, log
entry 17). It is the one value that `Memory` does not list. -/
abbrev unlistedByte : Byte := 0#8

/-- The number of memory cells (R4, R30). -/
abbrev memSize : Nat := 256

/-- The reserved HALT word, matched on all 8 bits before any field is decoded (R55). -/
abbrev haltWord : Byte := 0x01#8

end Sys2Proof.Config
end

