-- ==== Sys2Proof/Machine/State.lean ====
section
/-! DEFINITION. The machine's state, every piece the spec gives it (spec/10_state.md R10 to R23), its value after reset,
and the reasons for which a step can stop. -/

namespace Sys2Proof.Machine

/-- The three faults the core raises (spec/60_exceptions.md R130). -/
inductive Cause where
  /-- The word at `pc` is none of the 29 canonical words (R131). -/
  | unsupportedOperation
  /-- An address, a register index, SP or a successor PC out of range (R132). -/
  | addressingError
  /-- DIV or MOD with a zero divisor (R133). -/
  | divisionByZero
deriving DecidableEq, Repr

/-- `RUN` (R19). `faulted c` is what the source calls a fatal error; it is not final, `halted` is (R144, R145). -/
inductive RunState where
  | running
  | halted
  | faulted (c : Cause)
deriving DecidableEq, Repr

/-- The situation in which a rule raises a fault. The labels are diagnostic only and are no state (R132, R139). -/
inductive Raise where
  | unsupportedOperation
  | memAddress
  | regIndex
  | divisionByZero
  | stackRange
  | pcRange
deriving DecidableEq, Repr

/-- Why a step has no next state. A fault the SPEC calls a fault is no `Fault` of this model: it is a next state with `run =
faulted c` (R137). These two say that the machine has no step any more (R115). -/
inductive Fault where
  /-- Raised by `step` alone, when `RUN = HALTED`: the machine has no step until reset (R115, R116). Safe. -/
  | noStepHalted
  /-- Raised by `step` alone, when `RUN = FAULTED(c)`: the machine has no step until reset (R115, R145). Safe. -/
  | noStepFaulted (c : Cause)
deriving DecidableEq, Repr

/-- Why an instruction has no meaning. Every instruction of the table has one, so no step answers a refusal. -/
inductive Refusal where
  /-- For an arm of `exec` without a meaning; no arm is left so. Safe. -/
  | notModelled (mnemonic : String)
deriving DecidableEq, Repr

/-- The 256 cells (R20, R30) as (address, byte) pairs in one canonical form: addresses strictly rising and below 256, no
entry equal to `Config.unlistedByte` (`Memory.wf`). -/
abbrev Memory := List Host.Cell

/-- Everything the spec gives the machine, and nothing else (R10 to R22). -/
structure State where
  /-- `x[0]` to `x[7]` (R10). -/
  regs : Vector Byte 8
  /-- The address of the next instruction word (R14). -/
  pc : Byte
  /-- The address of the byte pushed last, 255 when the stack is empty (R17). -/
  sp : Byte
  /-- FL: E bit 0, G bit 1, L bit 2 (R18). -/
  fl : Byte
  /-- RUN (R19). -/
  run : RunState
  /-- The memory (R20). -/
  mem : Memory
  /-- The bytes emitted so far, the oldest first (R21). -/
  out : List Byte
deriving DecidableEq, Repr

/-- The machine right after reset, before `load` (R23, R150). -/
def State.reset : State :=
  { regs := Vector.replicate 8 Config.regReset
    pc := Config.pcReset
    sp := Config.spReset
    fl := Config.flReset
    run := .running
    mem := []
    out := [] }

end Sys2Proof.Machine
end

