-- ==== Sys2Proof/Machine/Memory.lean ====
section
/-! DEFINITION. Reading and writing one cell of the memory list, and its canonical form. -/

namespace Sys2Proof.Machine

/-- The cell at address `a`; a cell that is not listed holds `Config.unlistedByte`. -/
def Memory.peek : Memory → Nat → Byte
  | [], _ => Config.unlistedByte
  | (k, v) :: m, a => if k = a then v else Memory.peek m a

/-- `m` with `v` in the cell at address `a`. Writing the value an unlisted cell reads as takes the entry out, so the
canonical form is kept. -/
def Memory.poke : Memory → Nat → Byte → Memory
  | [], a, v => if v = Config.unlistedByte then [] else [(a, v)]
  | (k, w) :: m, a, v =>
    if k < a then (k, w) :: Memory.poke m a v
    else
      let after := if k = a then m else (k, w) :: m
      if v = Config.unlistedByte then after else (a, v) :: after

/-- The canonical form, for addresses from `lo` on. -/
def Memory.wfFrom : Nat → Memory → Bool
  | _, [] => true
  | lo, (k, v) :: m =>
    decide (lo ≤ k) && decide (k < Config.memSize) && decide (v ≠ Config.unlistedByte) && Memory.wfFrom (k + 1) m

/-- Addresses strictly rising and below 256, no entry equal to what an unlisted cell reads as. -/
def Memory.wf (m : Memory) : Bool :=
  Memory.wfFrom 0 m

end Sys2Proof.Machine
end

