-- ==== Sys2Proof/Machine/Operands.lean ====
section
/-! DEFINITION. The operand forms: register index check, register read and write (spec/10_state.md R10 to R12), and the
named updates of the other fields. -/

namespace Sys2Proof.Machine

/-- R8, R85: a mathematical result reduced modulo 256 to the byte that is stored. -/
def narrow (n : Int) : Byte :=
  BitVec.ofInt 8 n

/-- R12, `RegIdx`: the whole operand byte is the index; above 7 it raises AddressingError. -/
def regIdx (b : Byte) : Except Raise (Fin 8) :=
  if h : b.toNat < 8 then .ok ⟨b.toNat, h⟩ else .error .regIndex

/-- The operand byte that names register `r`: `R0` to `R7` are the bytes 0 to 7 (R53, R61). -/
def regByte (r : Fin 8) : Byte :=
  BitVec.ofNat 8 r.val

/-- `x[r]`. -/
def State.reg (s : State) (r : Fin 8) : Byte :=
  s.regs[r]

/-- `x[r] <- v`; the other registers are independent cells (R10). -/
def State.setReg (s : State) (r : Fin 8) (v : Byte) : State :=
  { s with regs := s.regs.set r v }

/-- `pc <- v`. -/
def State.setPc (s : State) (v : Byte) : State :=
  { s with pc := v }

/-- `sp <- v`. -/
def State.setSp (s : State) (v : Byte) : State :=
  { s with sp := v }

/-- `fl <- v`. -/
def State.setFl (s : State) (v : Byte) : State :=
  { s with fl := v }

/-- `RUN <- r`. -/
def State.setRun (s : State) (r : RunState) : State :=
  { s with run := r }

/-- One cell of memory replaced. -/
def State.setByte (s : State) (a : Nat) (v : Byte) : State :=
  { s with mem := s.mem.poke a v }

/-- R21, `Emit(v)`: the byte is appended to the output stream. -/
def State.emit (s : State) (v : Byte) : State :=
  { s with out := s.out ++ [v] }

/-- One cell of memory read: what claims about memory are stated with. -/
def State.byte (s : State) (a : Nat) : Byte :=
  s.mem.peek a

end Sys2Proof.Machine
end

