-- ==== Sys2Proof/Machine/Flags.lean ====
section
/-! DEFINITION. The flags register: what CMP writes (spec/41_alu.md R78), and the conditions of the jumps
(spec/42_pcm.md R94 to R100) as tests of its bits (spec/10_state.md R18; the layout is decision D3, log entry 10). -/

namespace Sys2Proof.Machine

/-- EQUAL, bit 0. -/
def flagE (fl : Byte) : Bool := fl.getLsbD 0

/-- GREATER, bit 1. -/
def flagG (fl : Byte) : Bool := fl.getLsbD 1

/-- LESS, bit 2. -/
def flagL (fl : Byte) : Bool := fl.getLsbD 2

/-- R78: all 8 bits of FL after comparing `x` with `y`, both unsigned (decision D5, log entry 11). -/
def compareFlags (x y : Byte) : Byte :=
  if x.toNat = y.toNat then 0b00000001
  else if x.toNat > y.toNat then 0b00000010
  else 0b00000100

/-- R18: the legal values of FL: unset, EQUAL, GREATER, LESS. -/
def flLegal (fl : Byte) : Bool :=
  decide (fl = 0b000 ∨ fl = 0b001 ∨ fl = 0b010 ∨ fl = 0b100)

/-- R94: EQUAL. -/
def condEq (fl : Byte) : Bool := flagE fl

/-- R95: not-EQUAL, the absence of EQUAL, so it holds while FL is unset (decision D4). -/
def condNe (fl : Byte) : Bool := !flagE fl

/-- R96: GREATER. -/
def condGt (fl : Byte) : Bool := flagG fl

/-- R97: LESS. -/
def condLt (fl : Byte) : Bool := flagL fl

/-- R98: EQUAL-or-LESS. -/
def condLe (fl : Byte) : Bool := flagE fl || flagL fl

/-- R99: EQUAL-or-GREATER. -/
def condGe (fl : Byte) : Bool := flagE fl || flagG fl

end Sys2Proof.Machine
end

