-- ==== Sys2Proof/Machine/Ops.lean ====
section
/-! DEFINITION. The named operations of the rules: taking a fault (spec/60_exceptions.md R137), memory access and the
stack (spec/20_memory.md R31, R37, R38), the sequential PC (spec/10_state.md R15), and the load of an image
(spec/70_reset_and_hazards.md R151). An operation that raises answers the situation it raises in and no state, so
nothing of it is kept. -/

namespace Sys2Proof.Machine

/-- The architectural fault of each situation: four situations are one fault (R132). -/
def Raise.cause : Raise → Cause
  | .unsupportedOperation => .unsupportedOperation
  | .memAddress => .addressingError
  | .regIndex => .addressingError
  | .divisionByZero => .divisionByZero
  | .stackRange => .addressingError
  | .pcRange => .addressingError

/-- Fault entry (R137): RUN records the cause and nothing else changes; PC stays on the faulting instruction. There is
no return from it (R138): only reset leaves `faulted`. -/
def takeFault (c : Cause) (s : State) : State :=
  s.setRun (.faulted c)

/-- The end of an instruction's rule: its commit, or the fault it raised, taken in the state from before the
instruction (R8, R137). -/
def settle (s : State) : Except Raise State → Host.Outcome State Fault Refusal
  | .ok t => .next t
  | .error e => .next (takeFault e.cause s)

/-- R31, `MemRead(addr, 1)`; `addr` is an unbounded integer. -/
def memRead (addr : Int) (s : State) : Except Raise Byte :=
  if addr < 0 ∨ 255 < addr then .error .memAddress else .ok (s.byte addr.toNat)

/-- R31, `MemWrite(addr, 1, v)`. -/
def memWrite (addr : Int) (v : Byte) (s : State) : Except Raise State :=
  if addr < 0 ∨ 255 < addr then .error .memAddress else .ok (s.setByte addr.toNat v)

/-- R15, `SeqPC(n)`: PC does not wrap (decision D8, log entry 14). -/
def seqPc (n : Nat) (s : State) : Except Raise Byte :=
  if 255 < s.pc.toNat + n then .error .pcRange else .ok (narrow (s.pc.toNat + n))

/-- The check of R37: a push at `sp = 0` would make SP -1. -/
def checkPush (s : State) : Except Raise Unit :=
  if s.sp = 0#8 then .error .stackRange else .ok ()

/-- The check of R38: a pop at `sp = 255` would make SP 256. -/
def checkPop (s : State) : Except Raise Unit :=
  if s.sp = 255#8 then .error .stackRange else .ok ()

/-- The address a push stores to: `sp - 1` (R32). -/
def pushAddr (s : State) : Int :=
  s.sp.toNat - 1

/-- R37, `Push(v)`: the check, then the new SP, then the write at the new SP. -/
def pushByte (v : Byte) (s : State) : Except Raise State := do
  checkPush s
  memWrite (pushAddr s) v (s.setSp (narrow (pushAddr s)))

/-- R38, `Pop()`: the byte at the old SP, and the state with the new SP. The cell keeps its value. -/
def popByte (s : State) : Except Raise (Byte × State) := do
  checkPop s
  let v ← memRead s.sp.toNat s
  .ok (v, s.setSp (narrow (s.sp.toNat + 1)))

/-- The loop of R151: the bytes of an image at consecutive addresses from `addr` on. -/
def loadFrom (addr : Nat) : List Byte → State → Except Raise State
  | [], s => .ok s
  | b :: image, s => do
    let t ← memWrite addr b s
    loadFrom (addr + 1) image t

/-- R151, `load(image)`: the image from address 0, nothing else changed; an image longer than 256 bytes is refused before
the run (decision D14, log entry 17). The spec lets it happen between reset and the first step only (R6). -/
def State.load (image : List Byte) (s : State) : Option State :=
  if Config.memSize < image.length then none
  else match loadFrom 0 image s with
    | .ok t => some t
    | .error _ => none

/-- R153: how a run starts: reset, then `load(image)`. -/
def State.boot (image : List Byte) : Option State :=
  State.reset.load image

/-- Bytes stored at consecutive addresses from `addr` on; an address above 255 does not exist and its byte is left out.
Used to place an instruction for the next fetch. -/
def placeFrom (addr : Nat) : List Byte → State → State
  | [], s => s
  | b :: bytes, s => placeFrom (addr + 1) bytes (if addr < Config.memSize then s.setByte addr b else s)

end Sys2Proof.Machine
end

