-- ==== Sys2Proof/Machine/Alu.lean ====
section
/-! DEFINITION. The ALU instructions (spec/41_alu.md). Each result is computed exactly and reduced modulo 256 (R85);
every operand is unsigned (R11, decision D5, log entry 11). -/

namespace Sys2Proof.Machine

def aluAdd (x y : Byte) : Byte := narrow (x.toNat + y.toNat)

def aluSub (x y : Byte) : Byte := narrow (x.toNat - y.toNat)

/-- The low 8 bits of the product (R73). -/
def aluMul (x y : Byte) : Byte := narrow (x.toNat * y.toNat)

/-- Unsigned quotient, rounded toward zero (R74); used with `y ≠ 0` only. -/
def aluDiv (x y : Byte) : Byte := narrow (x.toNat / y.toNat : Nat)

/-- Unsigned remainder (R75); used with `y ≠ 0` only. -/
def aluMod (x y : Byte) : Byte := narrow (x.toNat % y.toNat : Nat)

def aluInc (x : Byte) : Byte := narrow (x.toNat + 1)

def aluDec (x : Byte) : Byte := narrow (x.toNat - 1)

def aluAnd (x y : Byte) : Byte := x &&& y

/-- `255 - x`, every bit inverted (R80; decision D7, log entry 13). -/
def aluNot (x : Byte) : Byte := narrow (255 - x.toNat)

def aluOr (x y : Byte) : Byte := x ||| y

def aluXor (x y : Byte) : Byte := x ^^^ y

/-- `(x * 2^y) mod 256` for the whole amount `y`, 0 to 255 (R83; decision D6, log entry 12). -/
def aluShl (x y : Byte) : Byte := narrow (x.toNat * 2 ^ y.toNat)

/-- `x div 2^y`, logical, for the whole amount `y` (R84; decisions D5 and D6). -/
def aluShr (x y : Byte) : Byte := narrow (x.toNat / 2 ^ y.toNat : Nat)

/-- R70 for the two-register forms without a zero check: index checks, successor address, commit. -/
def binaryOp (f : Byte → Byte → Byte) (a b : Byte) (s : State) : Except Raise State := do
  let ra ← regIdx a
  let rb ← regIdx b
  let npc ← seqPc 3 s
  .ok ((s.setReg ra (f (s.reg ra) (s.reg rb))).setPc npc)

/-- R70, R74, R75: as `binaryOp`, with the divisor checked before the successor address (R136). -/
def divisionOp (f : Byte → Byte → Byte) (a b : Byte) (s : State) : Except Raise State := do
  let ra ← regIdx a
  let rb ← regIdx b
  if s.reg rb = 0#8 then .error .divisionByZero
  else do
    let npc ← seqPc 3 s
    .ok ((s.setReg ra (f (s.reg ra) (s.reg rb))).setPc npc)

/-- R70 for the one-register forms. -/
def unaryOp (f : Byte → Byte) (a : Byte) (s : State) : Except Raise State := do
  let ra ← regIdx a
  let npc ← seqPc 2 s
  .ok ((s.setReg ra (f (s.reg ra))).setPc npc)

/-- R78: the comparison writes FL and no register. -/
def compareOp (a b : Byte) (s : State) : Except Raise State := do
  let ra ← regIdx a
  let rb ← regIdx b
  let npc ← seqPc 3 s
  .ok ((s.setFl (compareFlags (s.reg ra) (s.reg rb))).setPc npc)

/-- R71. -/
def execAdd (a b : Byte) (s : State) : Host.Outcome State Fault Refusal := settle s (binaryOp aluAdd a b s)

/-- R72. -/
def execSub (a b : Byte) (s : State) : Host.Outcome State Fault Refusal := settle s (binaryOp aluSub a b s)

/-- R73. -/
def execMul (a b : Byte) (s : State) : Host.Outcome State Fault Refusal := settle s (binaryOp aluMul a b s)

/-- R74. -/
def execDiv (a b : Byte) (s : State) : Host.Outcome State Fault Refusal := settle s (divisionOp aluDiv a b s)

/-- R75. -/
def execMod (a b : Byte) (s : State) : Host.Outcome State Fault Refusal := settle s (divisionOp aluMod a b s)

/-- R76. -/
def execInc (a : Byte) (s : State) : Host.Outcome State Fault Refusal := settle s (unaryOp aluInc a s)

/-- R77. -/
def execDec (a : Byte) (s : State) : Host.Outcome State Fault Refusal := settle s (unaryOp aluDec a s)

/-- R78. -/
def execCmp (a b : Byte) (s : State) : Host.Outcome State Fault Refusal := settle s (compareOp a b s)

/-- R79. -/
def execAnd (a b : Byte) (s : State) : Host.Outcome State Fault Refusal := settle s (binaryOp aluAnd a b s)

/-- R80. -/
def execNot (a : Byte) (s : State) : Host.Outcome State Fault Refusal := settle s (unaryOp aluNot a s)

/-- R81. -/
def execOr (a b : Byte) (s : State) : Host.Outcome State Fault Refusal := settle s (binaryOp aluOr a b s)

/-- R82. -/
def execXor (a b : Byte) (s : State) : Host.Outcome State Fault Refusal := settle s (binaryOp aluXor a b s)

/-- R83. -/
def execShl (a b : Byte) (s : State) : Host.Outcome State Fault Refusal := settle s (binaryOp aluShl a b s)

/-- R84. -/
def execShr (a b : Byte) (s : State) : Host.Outcome State Fault Refusal := settle s (binaryOp aluShr a b s)

end Sys2Proof.Machine
end

