-- ==== Sys2Proof/Machine/Misc.lean ====
section
/-! DEFINITION. The MISC instructions (spec/43_misc.md) and HALT (spec/44_loop_and_halt.md R116). -/

namespace Sys2Proof.Machine

/-- R106: no state change other than PC. -/
def nopOp (s : State) : Except Raise State := do
  let npc ← seqPc 1 s
  .ok (s.setPc npc)

/-- R107: the immediate is the whole byte, unsigned, never checked. -/
def ldiOp (a imm : Byte) (s : State) : Except Raise State := do
  let ra ← regIdx a
  let npc ← seqPc 3 s
  .ok ((s.setReg ra imm).setPc npc)

/-- R108: the stack check before the successor address, then the push. -/
def pushOp (a : Byte) (s : State) : Except Raise State := do
  let ra ← regIdx a
  checkPush s
  let npc ← seqPc 2 s
  let t ← pushByte (s.reg ra) s
  .ok (t.setPc npc)

/-- R109: the stack check before the successor address; the popped cell keeps its value. -/
def popOp (a : Byte) (s : State) : Except Raise State := do
  let ra ← regIdx a
  let (v, t) ← popByte s
  let npc ← seqPc 2 s
  .ok ((t.setReg ra v).setPc npc)

/-- R111: the byte is emitted; a PRN that faults emits nothing. -/
def prnOp (a : Byte) (s : State) : Except Raise State := do
  let ra ← regIdx a
  let npc ← seqPc 2 s
  .ok ((s.emit (s.reg ra)).setPc npc)

/-- R106. -/
def execNop (s : State) : Host.Outcome State Fault Refusal := settle s (nopOp s)

/-- R107. -/
def execLdi (a imm : Byte) (s : State) : Host.Outcome State Fault Refusal := settle s (ldiOp a imm s)

/-- R108. -/
def execPush (a : Byte) (s : State) : Host.Outcome State Fault Refusal := settle s (pushOp a s)

/-- R109. -/
def execPop (a : Byte) (s : State) : Host.Outcome State Fault Refusal := settle s (popOp a s)

/-- R111. -/
def execPrn (a : Byte) (s : State) : Host.Outcome State Fault Refusal := settle s (prnOp a s)

/-- R116: only RUN changes; PC stays at the HALT word (decision D18, log entry 21). -/
def execHlt (s : State) : Host.Outcome State Fault Refusal := .next (s.setRun .halted)

end Sys2Proof.Machine
end

