-- ==== Sys2Proof/Machine/Pcm.lean ====
section
/-! DEFINITION. The PCM (control-transfer) instructions (spec/42_pcm.md). Each sets PC itself (R90); targets are absolute
and come from a register, or for RET from the stack. -/

namespace Sys2Proof.Machine

/-- R94 to R99: the index is checked whether or not the jump is taken (decision D13, log entry 18); only a jump that is
not taken evaluates the successor address (R90). -/
def condJump (taken : Byte → Bool) (a : Byte) (s : State) : Except Raise State := do
  let ra ← regIdx a
  if taken s.fl then .ok (s.setPc (s.reg ra))
  else do
    let npc ← seqPc 2 s
    .ok (s.setPc npc)

/-- R91: the stack check, then the return address check (decision D9, log entry 14), then push and jump. -/
def callOp (a : Byte) (s : State) : Except Raise State := do
  let ra ← regIdx a
  checkPush s
  let ret ← seqPc 2 s
  let t ← pushByte ret s
  .ok (t.setPc (s.reg ra))

/-- R92: RET reads no operand byte and takes whatever byte is on top of the stack. -/
def retOp (s : State) : Except Raise State := do
  let (target, t) ← popByte s
  .ok (t.setPc target)

/-- R93. -/
def jumpOp (a : Byte) (s : State) : Except Raise State := do
  let ra ← regIdx a
  .ok (s.setPc (s.reg ra))

/-- R91. -/
def execCall (a : Byte) (s : State) : Host.Outcome State Fault Refusal := settle s (callOp a s)

/-- R92. -/
def execRet (s : State) : Host.Outcome State Fault Refusal := settle s (retOp s)

/-- R93. -/
def execJmp (a : Byte) (s : State) : Host.Outcome State Fault Refusal := settle s (jumpOp a s)

/-- R94. -/
def execJeq (a : Byte) (s : State) : Host.Outcome State Fault Refusal := settle s (condJump condEq a s)

/-- R95. -/
def execJne (a : Byte) (s : State) : Host.Outcome State Fault Refusal := settle s (condJump condNe a s)

/-- R96. -/
def execJgt (a : Byte) (s : State) : Host.Outcome State Fault Refusal := settle s (condJump condGt a s)

/-- R97. -/
def execJlt (a : Byte) (s : State) : Host.Outcome State Fault Refusal := settle s (condJump condLt a s)

/-- R98. -/
def execJle (a : Byte) (s : State) : Host.Outcome State Fault Refusal := settle s (condJump condLe a s)

/-- R99. -/
def execJge (a : Byte) (s : State) : Host.Outcome State Fault Refusal := settle s (condJump condGe a s)

end Sys2Proof.Machine
end

