-- ==== Sys2Proof/Syntax.lean ====
section
/-! DEFINITION. The instruction set as syntax: one constructor per row of spec/opcode_table.json (spec/30_encoding.md
R58, the closed enumeration of R123). -/

namespace Sys2Proof

/-- An instruction with its operand BYTES, `a` at `pc+1` and `b` (or LDI's immediate) at `pc+2` (R33, R52). A register
operand is the whole byte and is checked when the instruction runs, not when it is decoded (R12, R53): a byte above
7 is a term of this type that `Instr.wf` refuses and that takes AddressingError when executed (log entry 3). -/
inductive Instr where
  | add (a b : Byte)
  | sub (a b : Byte)
  | mul (a b : Byte)
  | div (a b : Byte)
  | mod (a b : Byte)
  | inc (a : Byte)
  | dec (a : Byte)
  | cmp (a b : Byte)
  | and (a b : Byte)
  | not (a : Byte)
  | or (a b : Byte)
  | xor (a b : Byte)
  | shl (a b : Byte)
  | shr (a b : Byte)
  | call (a : Byte)
  | ret
  | jmp (a : Byte)
  | jeq (a : Byte)
  | jne (a : Byte)
  | jgt (a : Byte)
  | jlt (a : Byte)
  | jle (a : Byte)
  | jge (a : Byte)
  | nop
  | hlt
  | ldi (a imm : Byte)
  | push (a : Byte)
  | pop (a : Byte)
  | prn (a : Byte)
deriving DecidableEq, Repr

/-- The unit that executes an instruction (R56); HALT is recognised by the loop itself (R55). -/
inductive Category where
  | alu
  | pcm
  | misc
  | loop
deriving DecidableEq, Repr

/-- Which unit executes which instruction (R1, R57). -/
def Instr.unit : Instr → Category
  | .add _ _ | .sub _ _ | .mul _ _ | .div _ _ | .mod _ _ | .inc _ | .dec _ | .cmp _ _ | .and _ _ | .not _ | .or _ _
  | .xor _ _ | .shl _ _ | .shr _ _ => .alu
  | .call _ | .ret | .jmp _ | .jeq _ | .jne _ | .jgt _ | .jlt _ | .jle _ | .jge _ => .pcm
  | .nop | .ldi _ _ | .push _ | .pop _ | .prn _ => .misc
  | .hlt => .loop

/-- How many operand bytes follow the instruction word (R52: formats N, R, RR and RI). -/
def Instr.nops : Instr → Nat
  | .ret | .nop | .hlt => 0
  | .inc _ | .dec _ | .not _ | .call _ | .jmp _ | .jeq _ | .jne _ | .jgt _ | .jlt _ | .jle _ | .jge _ | .push _
  | .pop _ | .prn _ => 1
  | .add _ _ | .sub _ _ | .mul _ _ | .div _ _ | .mod _ _ | .cmp _ _ | .and _ _ | .or _ _ | .xor _ _ | .shl _ _
  | .shr _ _ | .ldi _ _ => 2

/-- The operand bytes that name a register, in the order in which they are checked (R53, R136). LDI's second byte is
an immediate and is not among them. -/
def Instr.regOperands : Instr → List Byte
  | .ret | .nop | .hlt => []
  | .inc a | .dec a | .not a | .call a | .jmp a | .jeq a | .jne a | .jgt a | .jlt a | .jle a | .jge a | .push a
  | .pop a | .prn a | .ldi a _ => [a]
  | .add a b | .sub a b | .mul a b | .div a b | .mod a b | .cmp a b | .and a b | .or a b | .xor a b | .shl a b
  | .shr a b => [a, b]

end Sys2Proof
end

