-- ==== Sys2Proof/WellFormed.lean ====
section
/-! DEFINITION. Which terms of `Instr` name only registers the machine has (spec/10_state.md R12, spec/30_encoding.md
R53). -/

namespace Sys2Proof

/-- Every register operand is an index 0 to 7. An ill-formed instruction still decodes and still has a meaning: it takes
AddressingError (R12). -/
def Instr.wf (i : Instr) : Bool :=
  i.regOperands.all (fun b => b.toNat ≤ 7)

end Sys2Proof
end

