-- ==== Sys2Proof/Decode.lean ====
section
/-! DEFINITION. The decoder, the encoder, and the fields of an instruction word (spec/30_encoding.md R50 to R59). -/

namespace Sys2Proof

/-- What an instruction word selects: an operation that still lacks its operand bytes (the formats of R52; RR and RI
have the same shape, two bytes). -/
inductive Shape where
  | bare (i : Instr)
  | one (mk : Byte → Instr)
  | two (mk : Byte → Byte → Instr)

/-- The instruction a shape makes of the bytes that follow the word. -/
def Shape.fill : Shape → Byte → Byte → Instr
  | .bare i, _, _ => i
  | .one mk, a, _ => mk a
  | .two mk, a, b => mk a b

/-- R55, R59: HALT is recognised first and by the whole word; then the word must be one of the other 28 words of the
table of R58; every other word is reserved. The values are the spec's decision D1 (log entry 8). -/
def decodeWord (ir : Byte) : Option Shape :=
  if ir = Config.haltWord then some (.bare .hlt)
  else match ir with
    | 0xA0#8 => some (.two .add)
    | 0xA1#8 => some (.two .sub)
    | 0xA2#8 => some (.two .mul)
    | 0xA3#8 => some (.two .div)
    | 0xA4#8 => some (.two .mod)
    | 0x65#8 => some (.one .inc)
    | 0x66#8 => some (.one .dec)
    | 0xA7#8 => some (.two .cmp)
    | 0xA8#8 => some (.two .and)
    | 0x69#8 => some (.one .not)
    | 0xAA#8 => some (.two .or)
    | 0xAB#8 => some (.two .xor)
    | 0xAC#8 => some (.two .shl)
    | 0xAD#8 => some (.two .shr)
    | 0x50#8 => some (.one .call)
    | 0x11#8 => some (.bare .ret)
    | 0x54#8 => some (.one .jmp)
    | 0x55#8 => some (.one .jeq)
    | 0x56#8 => some (.one .jne)
    | 0x57#8 => some (.one .jgt)
    | 0x58#8 => some (.one .jlt)
    | 0x59#8 => some (.one .jle)
    | 0x5A#8 => some (.one .jge)
    | 0x00#8 => some (.bare .nop)
    | 0x82#8 => some (.two .ldi)
    | 0x45#8 => some (.one .push)
    | 0x46#8 => some (.one .pop)
    | 0x47#8 => some (.one .prn)
    | _ => none

/-- Why bytes are no instruction. -/
inductive DecodeError where
  /-- There is no byte at all. -/
  | noWord
  /-- The first byte is one of the 227 reserved words (R59): UnsupportedOperation. -/
  | reservedWord (w : Byte)
  /-- The word is canonical and one of its operand bytes is missing (R54): AddressingError. -/
  | operandMissing (w : Byte)
deriving DecidableEq, Repr

/-- The instruction at the head of a list of bytes, lowest address first (R33), and the bytes after it. Exactly the
operand bytes of the word's format are taken (R54). -/
def decode : List Byte → Except DecodeError (Instr × List Byte)
  | [] => .error .noWord
  | ir :: rest =>
    match decodeWord ir, rest with
    | none, _ => .error (.reservedWord ir)
    | some (.bare i), _ => .ok (i, rest)
    | some (.one mk), a :: rest' => .ok (mk a, rest')
    | some (.two mk), a :: b :: rest' => .ok (mk a b, rest')
    | some _, _ => .error (.operandMissing ir)

/-- The instruction word of each instruction, as the table of R58 spells it in binary. -/
def Instr.word : Instr → Byte
  | .add _ _ => 0b10100000
  | .sub _ _ => 0b10100001
  | .mul _ _ => 0b10100010
  | .div _ _ => 0b10100011
  | .mod _ _ => 0b10100100
  | .inc _ => 0b01100101
  | .dec _ => 0b01100110
  | .cmp _ _ => 0b10100111
  | .and _ _ => 0b10101000
  | .not _ => 0b01101001
  | .or _ _ => 0b10101010
  | .xor _ _ => 0b10101011
  | .shl _ _ => 0b10101100
  | .shr _ _ => 0b10101101
  | .call _ => 0b01010000
  | .ret => 0b00010001
  | .jmp _ => 0b01010100
  | .jeq _ => 0b01010101
  | .jne _ => 0b01010110
  | .jgt _ => 0b01010111
  | .jlt _ => 0b01011000
  | .jle _ => 0b01011001
  | .jge _ => 0b01011010
  | .nop => 0b00000000
  | .hlt => 0b00000001
  | .ldi _ _ => 0b10000010
  | .push _ => 0b01000101
  | .pop _ => 0b01000110
  | .prn _ => 0b01000111

/-- The operand bytes, the first at the lower address (R33, R54). -/
def Instr.operands : Instr → List Byte
  | .ret | .nop | .hlt => []
  | .inc a | .dec a | .not a | .call a | .jmp a | .jeq a | .jne a | .jgt a | .jlt a | .jle a | .jge a | .push a
  | .pop a | .prn a => [a]
  | .add a b | .sub a b | .mul a b | .div a b | .mod a b | .cmp a b | .and a b | .or a b | .xor a b | .shl a b
  | .shr a b => [a, b]
  | .ldi a imm => [a, imm]

/-- The bytes of an instruction in memory order (R50, R52). -/
def encode (i : Instr) : List Byte :=
  i.word :: i.operands

/-- The fields of an instruction word (R51). -/
structure WordFields where
  nops : Nat
  isAlu : Bool
  isPcm : Bool
  opcode : Nat
deriving DecidableEq, Repr

/-- R51: `nops = ir[7:6]`, `is_alu = ir[5]`, `is_pcm = ir[4]`, `opcode = ir[3:0]`. -/
def wordFields (ir : Byte) : WordFields :=
  { nops := ir.toNat / 64
    isAlu := ir.getLsbD 5
    isPcm := ir.getLsbD 4
    opcode := ir.toNat % 16 }

/-- R56: the category a word that is not HALT is dispatched to. -/
def wordCategory (ir : Byte) : Category :=
  if (wordFields ir).isAlu then .alu else if (wordFields ir).isPcm then .pcm else .misc

/-- The low `n` bytes of a number, the least significant first: the opcode table numbers bit 0 as the least
significant bit of the first byte. -/
def leBytes : Nat → Nat → List Byte
  | 0, _ => []
  | n + 1, w => BitVec.ofNat 8 w :: leBytes n (w / 256)

/-- The longest instruction, in bytes (R50). -/
def maxLength : Nat := 3

/-- The bytes of a table word of `nbits` bits, with zeros above it up to the longest instruction. -/
def tableBytes (nbits w : Nat) : List Byte :=
  leBytes maxLength (w % 2 ^ nbits)

/-- The instruction the decoder reads from an instruction whose bits, numbered as spec/opcode_table.json numbers them, are
`w`; every bit above `nbits` is zero. -/
def decodeTableWord (nbits w : Nat) : Option Instr :=
  match decode (tableBytes nbits w) with
  | .ok (i, _) => some i
  | .error _ => none

end Sys2Proof
end

