-- ==== Sys2Proof/Machine/Fetch.lean ====
section
/-! DEFINITION. Fetch and decode of the instruction at `pc` (spec/44_loop_and_halt.md R115 steps 1 to 3,
spec/30_encoding.md R54 to R59). -/

namespace Sys2Proof.Machine

/-- The word at `pc`, then exactly the operand bytes its format names, `a` before `b` (R54; decision D13, log entry 18). A
reserved word raises before any operand byte is read (R59, R131). -/
def fetchInstr (s : State) : Except Raise Instr := do
  let ir ← memRead s.pc.toNat s
  match decodeWord ir with
  | none => .error .unsupportedOperation
  | some (.bare i) => .ok i
  | some (.one mk) => do
    let a ← memRead (s.pc.toNat + 1) s
    .ok (mk a)
  | some (.two mk) => do
    let a ← memRead (s.pc.toNat + 1) s
    let b ← memRead (s.pc.toNat + 2) s
    .ok (mk a b)

end Sys2Proof.Machine
end

