-- ==== Sys2Proof/Machine/Step.lean ====
section
/-! DEFINITION. One step of the machine (spec/44_loop_and_halt.md R115), and the placing of an instruction where the next
step fetches it. -/

namespace Sys2Proof.Machine

/-- R115. Defined while `RUN = RUNNING`; in `halted` and `faulted` the machine has no step. A fault raised by fetch,
decode or the instruction is taken as a next state (R137). -/
def step (s : State) : Host.Outcome State Fault Refusal :=
  match s.run with
  | .halted => .fault .noStepHalted
  | .faulted c => .fault (.noStepFaulted c)
  | .running =>
    match fetchInstr s with
    | .ok i => exec i s
    | .error e => .next (takeFault e.cause s)

/-- `s` with the table word `w` of `nbits` bits (zeros above it, up to the longest instruction) in memory at `pc`, where
`step` fetches. It stands for the load of a program from outside (R151; log entries 5 and 6). -/
def State.withFetchWord (s : State) (nbits w : Nat) : State :=
  placeFrom s.pc.toNat (tableBytes nbits w) s

end Sys2Proof.Machine
end

