-- ==== Sys2Proof/Machine/HostView.lean ====
section
/-! DEFINITION. What the host reads of the core (spec/00_scope.md R6, R7), and the assembly spelling of an instruction
(spec/30_encoding.md R61). Nothing here changes the state. -/

namespace Sys2Proof.Machine

/-- R130: the code of a fault. -/
def Cause.code : Cause → Nat
  | .unsupportedOperation => 1
  | .addressingError => 2
  | .divisionByZero => 3

/-- R130: the fault code the `status` interface gives; 0 means no fault. HALTED is no fault (R144). -/
def statusCode : RunState → Nat
  | .running => 0
  | .halted => 0
  | .faulted c => c.code

/-- R21: the lines the host prints, one per emitted byte: its unsigned decimal numeral, no leading zeros. -/
def hostLines (s : State) : List String :=
  s.out.map (fun b => toString b.toNat)

/-- R7: what a program's execution is observed by: the bytes emitted and the run state with its cause. -/
def observe (s : State) : List Byte × RunState :=
  (s.out, s.run)

end Sys2Proof.Machine

namespace Sys2Proof

/-- The mnemonic of an instruction, as spec/opcode_table.json spells it. -/
def Instr.mnemonic : Instr → String
  | .add _ _ => "ADD"
  | .sub _ _ => "SUB"
  | .mul _ _ => "MUL"
  | .div _ _ => "DIV"
  | .mod _ _ => "MOD"
  | .inc _ => "INC"
  | .dec _ => "DEC"
  | .cmp _ _ => "CMP"
  | .and _ _ => "AND"
  | .not _ => "NOT"
  | .or _ _ => "OR"
  | .xor _ _ => "XOR"
  | .shl _ _ => "SHL"
  | .shr _ _ => "SHR"
  | .call _ => "CALL"
  | .ret => "RET"
  | .jmp _ => "JMP"
  | .jeq _ => "JEQ"
  | .jne _ => "JNE"
  | .jgt _ => "JGT"
  | .jlt _ => "JLT"
  | .jle _ => "JLE"
  | .jge _ => "JGE"
  | .nop => "NOP"
  | .hlt => "HLT"
  | .ldi _ _ => "LDI"
  | .push _ => "PUSH"
  | .pop _ => "POP"
  | .prn _ => "PRN"

/-- R61: `MNEMONIC`, `MNEMONIC Ra`, `MNEMONIC Ra, Rb` or `LDI Ra, imm`, numbers in decimal. -/
def Instr.asm (i : Instr) : String :=
  let name (b : Byte) : String := "R" ++ toString b.toNat
  match i with
  | .ret | .nop | .hlt => i.mnemonic
  | .inc a | .dec a | .not a | .call a | .jmp a | .jeq a | .jne a | .jgt a | .jlt a | .jle a | .jge a | .push a
  | .pop a | .prn a => i.mnemonic ++ " " ++ name a
  | .add a b | .sub a b | .mul a b | .div a b | .mod a b | .cmp a b | .and a b | .or a b | .xor a b | .shl a b
  | .shr a b => i.mnemonic ++ " " ++ name a ++ ", " ++ name b
  | .ldi a imm => i.mnemonic ++ " " ++ name a ++ ", " ++ toString imm.toNat

end Sys2Proof
end

