-- ==== Sys2Proof/Machine/Signals.lean ====
section
/-! DEFINITION. The hardware view of the decoder: the control signals of spec/44_loop_and_halt.md R121, the datapath they
steer, the fault conditions that gate them (spec/60_exceptions.md R135, R136), and the step built from the three. It is
a second description of the machine, read from the spec's tables; `step` is the first, read from its instruction
rules. -/

namespace Sys2Proof.Machine

/-- `reg_we`, the data written to `x[a]`. -/
inductive RegData where
  | aluResult
  | immediate
  | stackByte
deriving DecidableEq, Repr

/-- `mem_we`, the data written at `sp-1`. -/
inductive StoreData where
  | returnAddress
  | register
deriving DecidableEq, Repr

/-- `sp_op`. -/
inductive SpOp where
  | hold
  | dec
  | inc
deriving DecidableEq, Repr

/-- The conditions of the conditional jumps, as the table of R100 lists them. -/
inductive JumpCond where
  | eq
  | ne
  | gt
  | lt
  | le
  | ge
deriving DecidableEq, Repr

/-- `pc_sel`: `SEQn`, `REG`, `REG if condition else SEQ2`, `MEM`, `HOLD`. -/
inductive PcSel where
  | seq (n : Nat)
  | reg
  | regIf (c : JumpCond)
  | mem
  | hold
deriving DecidableEq, Repr

/-- One row of the table of R121. -/
structure Signals where
  /-- Operand bytes read: none, `a`, or `a` and `b`. -/
  operandBytes : Nat
  /-- `x[a]` is read. -/
  readA : Bool
  /-- `x[b]` is read. -/
  readB : Bool
  regWe : Option RegData
  /-- The stack byte at `sp` is read. -/
  memRe : Bool
  memWe : Option StoreData
  spOp : SpOp
  flWe : Bool
  pcSel : PcSel
  outStb : Bool
  halt : Bool
deriving DecidableEq, Repr

/-- Everything deasserted: the row from which the others are written. -/
def Signals.idle : Signals :=
  { operandBytes := 0, readA := false, readB := false, regWe := none, memRe := false, memWe := none, spOp := .hold
    flWe := false, pcSel := .hold, outStb := false, halt := false }

/-- R121, row `ADD SUB MUL DIV MOD AND OR XOR SHL SHR`. -/
def Signals.binary : Signals :=
  { Signals.idle with operandBytes := 2, readA := true, readB := true, regWe := some .aluResult, pcSel := .seq 3 }

/-- R121, row `INC DEC NOT`. -/
def Signals.unary : Signals :=
  { Signals.idle with operandBytes := 1, readA := true, regWe := some .aluResult, pcSel := .seq 2 }

/-- R121, row `JEQ JNE JGT JLT JLE JGE`. -/
def Signals.branch (c : JumpCond) : Signals :=
  { Signals.idle with operandBytes := 1, readA := true, pcSel := .regIf c }

/-- R121: what the decoder asserts for each instruction. -/
def signals : Instr → Signals
  | .add _ _ | .sub _ _ | .mul _ _ | .div _ _ | .mod _ _ | .and _ _ | .or _ _ | .xor _ _ | .shl _ _ | .shr _ _ =>
    Signals.binary
  | .inc _ | .dec _ | .not _ => Signals.unary
  | .cmp _ _ => { Signals.idle with operandBytes := 2, readA := true, readB := true, flWe := true, pcSel := .seq 3 }
  | .call _ => { Signals.idle with operandBytes := 1, readA := true, memWe := some .returnAddress, spOp := .dec, pcSel := .reg }
  | .ret => { Signals.idle with memRe := true, spOp := .inc, pcSel := .mem }
  | .jmp _ => { Signals.idle with operandBytes := 1, readA := true, pcSel := .reg }
  | .jeq _ => Signals.branch .eq
  | .jne _ => Signals.branch .ne
  | .jgt _ => Signals.branch .gt
  | .jlt _ => Signals.branch .lt
  | .jle _ => Signals.branch .le
  | .jge _ => Signals.branch .ge
  | .nop => { Signals.idle with pcSel := .seq 1 }
  | .ldi _ _ => { Signals.idle with operandBytes := 2, regWe := some .immediate, pcSel := .seq 3 }
  | .push _ => { Signals.idle with operandBytes := 1, readA := true, memWe := some .register, spOp := .dec, pcSel := .seq 2 }
  | .pop _ => { Signals.idle with operandBytes := 1, regWe := some .stackByte, memRe := true, spOp := .inc, pcSel := .seq 2 }
  | .prn _ => { Signals.idle with operandBytes := 1, readA := true, pcSel := .seq 2, outStb := true }
  | .hlt => { Signals.idle with halt := true }

/-- R100: taken (true) or not, as a table over the flag bits. -/
def JumpCond.holds : JumpCond → Byte → Bool
  | .eq, fl => flagE fl
  | .ne, fl => !flagE fl
  | .gt, fl => flagG fl
  | .lt, fl => flagL fl
  | .le, fl => flagE fl || flagL fl
  | .ge, fl => flagE fl || flagG fl

/-- The ALU's data output, by operation; 0 for an instruction that takes none. -/
def aluOutput : Instr → Byte → Byte → Byte
  | .add _ _, x, y => aluAdd x y
  | .sub _ _, x, y => aluSub x y
  | .mul _ _, x, y => aluMul x y
  | .div _ _, x, y => aluDiv x y
  | .mod _ _, x, y => aluMod x y
  | .inc _, x, _ => aluInc x
  | .dec _, x, _ => aluDec x
  | .and _ _, x, y => aluAnd x y
  | .not _, x, _ => aluNot x
  | .or _ _, x, y => aluOr x y
  | .xor _ _, x, y => aluXor x y
  | .shl _ _, x, y => aluShl x y
  | .shr _ _, x, y => aluShr x y
  | .cmp _ _, _, _ | .call _, _, _ | .ret, _, _ | .jmp _, _, _ | .jeq _, _, _ | .jne _, _, _ | .jgt _, _, _
  | .jlt _, _, _ | .jle _, _, _ | .jge _, _, _ | .nop, _, _ | .hlt, _, _ | .ldi _ _, _, _ | .push _, _, _
  | .pop _, _, _ | .prn _, _, _ => 0#8

/-- The operand byte `a`, or 0 where there is none. -/
def operandA (i : Instr) : Byte := i.operands.getD 0 0#8

/-- The operand byte `b`, or 0 where there is none. -/
def operandB (i : Instr) : Byte := i.operands.getD 1 0#8

/-- The register file's address port: the low three bits of an operand byte. The write and read of a byte above 7 is
gated by the fault conditions, so the bits dropped here are never observed. -/
def State.port (s : State) (b : Byte) : Byte :=
  s.reg (Fin.ofNat 8 b.toNat)

/-- What stands on the port for `x[a]`: the register where the decoder reads it, and otherwise any byte `idle`. -/
def busA (idle : Byte) (i : Instr) (s : State) : Byte :=
  if (signals i).readA then s.port (operandA i) else idle

/-- What stands on the port for `x[b]`. -/
def busB (idle : Byte) (i : Instr) (s : State) : Byte :=
  if (signals i).readB then s.port (operandB i) else idle

/-- What stands on memory's data output: the byte at SP where the decoder asserts `mem_re`. -/
def stackBus (idle : Byte) (i : Instr) (s : State) : Byte :=
  if (signals i).memRe then s.byte s.sp.toNat else idle

/-- Every write enable of one step applied at once, from the values `xa`, `xb`, `stackByte` on the three read ports and the
state before the step, no fault raised. -/
def commit (i : Instr) (xa xb stackByte : Byte) (s : State) : State :=
  let g := signals i
  let target := Fin.ofNat 8 (operandA i).toNat
  { regs := match g.regWe with
      | none => s.regs
      | some .aluResult => s.regs.set target (aluOutput i xa xb)
      | some .immediate => s.regs.set target (operandB i)
      | some .stackByte => s.regs.set target stackByte
    pc := match g.pcSel with
      | .seq n => s.pc + BitVec.ofNat 8 n
      | .reg => xa
      | .regIf c => if c.holds s.fl then xa else s.pc + 2#8
      | .mem => stackByte
      | .hold => s.pc
    sp := match g.spOp with
      | .hold => s.sp
      | .dec => s.sp - 1#8
      | .inc => s.sp + 1#8
    fl := if g.flWe then compareFlags xa xb else s.fl
    run := if g.halt then .halted else s.run
    mem := match g.memWe with
      | none => s.mem
      | some .returnAddress => s.mem.poke (s.sp.toNat - 1) (s.pc + 2#8)
      | some .register => s.mem.poke (s.sp.toNat - 1) xa
    out := if g.outStb then s.out ++ [xa] else s.out }

/-- The read ports, then the write enables. -/
def datapath (idle : Byte) (i : Instr) (s : State) : State :=
  commit i (busA idle i s) (busB idle i s) (stackBus idle i s) s

/-- The instructions that divide (R133, R135 last column). -/
def divides : Instr → Bool
  | .div _ _ | .mod _ _ => true
  | .add _ _ | .sub _ _ | .mul _ _ | .inc _ | .dec _ | .cmp _ _ | .and _ _ | .not _ | .or _ _ | .xor _ _ | .shl _ _
  | .shr _ _ | .call _ | .ret | .jmp _ | .jeq _ | .jne _ | .jgt _ | .jlt _ | .jle _ | .jge _ | .nop | .hlt | .ldi _ _
  | .push _ | .pop _ | .prn _ => false

/-- The stack column of R135: a push at `sp = 0`, a pop at `sp = 255`. -/
def stackFault (i : Instr) (s : State) : Bool :=
  match (signals i).spOp with
  | .hold => false
  | .dec => decide (s.sp = 0#8)
  | .inc => decide (s.sp = 255#8)

/-- The PC column of R135: the successor address `pc + nops + 1`, or CALL's return address, is above 255. Not evaluated
by HLT, RET, JMP and a conditional jump that is taken. -/
def pcFault (i : Instr) (s : State) : Bool :=
  match i, (signals i).pcSel with
  | .call _, _ => decide (255 < s.pc.toNat + 2)
  | _, .seq n => decide (255 < s.pc.toNat + n)
  | _, .regIf c => !c.holds s.fl && decide (255 < s.pc.toNat + 2)
  | _, .reg | _, .mem | _, .hold => false

/-- R135 in the order of R136, for an instruction whose word has been recognised: operand address, register index,
division by zero, stack range, PC range. -/
def faultTable (idle : Byte) (i : Instr) (s : State) : Option Cause :=
  if 255 < s.pc.toNat + (signals i).operandBytes then some .addressingError
  else if ∃ b ∈ i.regOperands, 7 < b.toNat then some .addressingError
  else if divides i ∧ busB idle i s = 0#8 then some .divisionByZero
  else if stackFault i s then some .addressingError
  else if pcFault i s then some .addressingError
  else none

/-- One step of the hardware view while `RUN = RUNNING`: the decoder, the fault conditions, then the gated enables. `idle` is
what stands on a port that the decoder does not read; the step is the same for every value of it. -/
def hardwareStep (idle : Byte) (s : State) : State :=
  match decodeWord (s.byte s.pc.toNat) with
  | none => takeFault .unsupportedOperation s
  | some shape =>
    let i := shape.fill (s.byte (s.pc.toNat + 1)) (s.byte (s.pc.toNat + 2))
    match faultTable idle i s with
    | some c => takeFault c s
    | none => datapath idle i s

end Sys2Proof.Machine
end

