-- ==== Sys2Proof/Safety.lean ====
section
/-! DEFINITION. The terms in which claims speak of runs: steps, final and failed states, the ends of a run
(spec/44_loop_and_halt.md R119), and the states a run can be in. -/

namespace Sys2Proof.Machine

/-- `s` takes a step to `t`. -/
def Steps (s t : State) : Prop :=
  step s = .next t

/-- R119, R144: the only normal termination. -/
def State.final (s : State) : Prop :=
  s.run = .halted

/-- R145: a faulted state is not final. -/
def State.failed (s : State) : Prop :=
  ∃ c, s.run = .faulted c

/-- `n` steps, or fewer when the machine has none left: an executor under a fuel bound (R120). -/
def runFor : Nat → State → State
  | 0, s => s
  | n + 1, s =>
    match step s with
    | .next t => runFor n t
    | .fault _ => s
    | .refused _ => s

/-- R119, first end of a run. -/
def RunHalts (s : State) : Prop :=
  ∃ n, (runFor n s).final

/-- R119, second end of a run. -/
def RunFaults (s : State) : Prop :=
  ∃ n, (runFor n s).failed

/-- R119, third case: the run goes on for ever. -/
def RunNeverEnds (s : State) : Prop :=
  ∀ n, (runFor n s).run = .running

/-- A run that never raises a fault. -/
def RunSafe (s : State) : Prop :=
  ∀ n, ¬ (runFor n s).failed

/-- What holds in every state of a run: memory in its canonical form, and FL one of its four legal values (R18). Every
other range the spec gives (registers, PC, SP in 0 to 255) holds by the type of its field. -/
def State.inv (s : State) : Bool :=
  s.mem.wf && flLegal s.fl

end Sys2Proof.Machine
end

