-- ==== Sys2Proof/Certificates/Slice0/Obligations.lean ====
section
/-! DEFINITION. The statements about the machine, for the provers. A register operand is written `regByte r` for `r` in 0 to
7: these are all the operand bytes that name a register (spec/10_state.md R12); every other operand byte is the subject
of `Obligations.RegisterIndexIsChecked`. Where a docstring names a decision D<n> of spec/92_eei_decisions.md, that clause
is the spec's own choice, logged as the model's entry named with it. -/

namespace Sys2Proof.Claims

open Sys2Proof.Machine

/-- All registers as before. -/
def RegsKept (s t : State) : Prop :=
  ∀ q, t.reg q = s.reg q

/-- All registers but `r` as before. -/
def RegsKeptBut (r : Fin 8) (s t : State) : Prop :=
  ∀ q, q ≠ r → t.reg q = s.reg q

/-- Every byte of memory reads as before. -/
def MemKept (s t : State) : Prop :=
  ∀ a, t.byte a = s.byte a

/-- The frame of an instruction whose only results are `x[r]` and a PC `n` higher. -/
def WritesOnlyReg (r : Fin 8) (n : Nat) (s t : State) : Prop :=
  RegsKeptBut r s t ∧ t.pc.toNat = s.pc.toNat + n ∧ t.sp = s.sp ∧ t.fl = s.fl ∧ t.run = s.run ∧ t.out = s.out ∧
    MemKept s t

/-- The frame of an instruction whose only result is PC. -/
def WritesOnlyPc (s t : State) : Prop :=
  RegsKept s t ∧ t.sp = s.sp ∧ t.fl = s.fl ∧ t.run = s.run ∧ t.out = s.out ∧ MemKept s t

/-- The frame of a push of `v`: SP one lower, `v` at the address the meaning computes (`pushAddr`), every other byte as
before, registers, FL, RUN and output as before. -/
def PushesByte (v : Byte) (s t : State) : Prop :=
  t.sp.toNat + 1 = s.sp.toNat ∧
    (∀ a : Nat, pushAddr s = a → t.byte a = v ∧ ∀ b, b ≠ a → t.byte b = s.byte b) ∧
    RegsKept s t ∧ t.fl = s.fl ∧ t.run = s.run ∧ t.out = s.out

/-- The bytes at PC, lowest address first: at most the longest instruction's, none beyond address 255. -/
def bytesAtPc (s : State) : List Byte :=
  (((List.range maxLength).map (s.pc.toNat + ·)).filter (· ≤ 255)).map s.byte

/-- The table of spec/30_encoding.md R58, hexadecimal column, top to bottom. -/
def canonicalWords : List Nat :=
  [0xA0, 0xA1, 0xA2, 0xA3, 0xA4, 0x65, 0x66, 0xA7, 0xA8, 0x69, 0xAA, 0xAB, 0xAC, 0xAD,
   0x50, 0x11, 0x54, 0x55, 0x56, 0x57, 0x58, 0x59, 0x5A,
   0x00, 0x01, 0x82, 0x45, 0x46, 0x47]

/-- The opcodes and operand counts of the ALU (R57, R58), as pairs. -/
def aluOpcodes : List (Nat × Nat) :=
  [(0, 2), (1, 2), (2, 2), (3, 2), (4, 2), (5, 1), (6, 1), (7, 2), (8, 2), (9, 1), (10, 2), (11, 2), (12, 2), (13, 2)]

/-- The opcodes and operand counts of the PCM. -/
def pcmOpcodes : List (Nat × Nat) :=
  [(0, 1), (1, 0), (4, 1), (5, 1), (6, 1), (7, 1), (8, 1), (9, 1), (10, 1)]

/-- The opcodes and operand counts of MISC; HALT is none of them. -/
def miscOpcodes : List (Nat × Nat) :=
  [(0, 0), (2, 2), (5, 1), (6, 1), (7, 1)]

/-- The operation that an opcode selects inside its category, with the operand bytes `a` and `b` (R57, the table of R58). -/
def operationOf (a b : Byte) : Category → Nat → Option Instr
  | .alu, 0b0000 => some (.add a b)
  | .alu, 0b0001 => some (.sub a b)
  | .alu, 0b0010 => some (.mul a b)
  | .alu, 0b0011 => some (.div a b)
  | .alu, 0b0100 => some (.mod a b)
  | .alu, 0b0101 => some (.inc a)
  | .alu, 0b0110 => some (.dec a)
  | .alu, 0b0111 => some (.cmp a b)
  | .alu, 0b1000 => some (.and a b)
  | .alu, 0b1001 => some (.not a)
  | .alu, 0b1010 => some (.or a b)
  | .alu, 0b1011 => some (.xor a b)
  | .alu, 0b1100 => some (.shl a b)
  | .alu, 0b1101 => some (.shr a b)
  | .pcm, 0b0000 => some (.call a)
  | .pcm, 0b0001 => some .ret
  | .pcm, 0b0100 => some (.jmp a)
  | .pcm, 0b0101 => some (.jeq a)
  | .pcm, 0b0110 => some (.jne a)
  | .pcm, 0b0111 => some (.jgt a)
  | .pcm, 0b1000 => some (.jlt a)
  | .pcm, 0b1001 => some (.jle a)
  | .pcm, 0b1010 => some (.jge a)
  | .misc, 0b0000 => some .nop
  | .misc, 0b0010 => some (.ldi a b)
  | .misc, 0b0101 => some (.push a)
  | .misc, 0b0110 => some (.pop a)
  | .misc, 0b0111 => some (.prn a)
  | _, _ => none

/-- The next PC that a PCM instruction's own rule sets (R91 to R99). -/
def pcmTarget (i : Instr) (s : State) (v : Byte) : Prop :=
  match i with
  | .call a | .jmp a => ∃ r, a = regByte r ∧ v = s.reg r
  | .ret => v = s.byte s.sp.toNat
  | .jeq a => ∃ r, a = regByte r ∧ v = if s.fl.getLsbD 0 then s.reg r else s.pc + 2#8
  | .jne a => ∃ r, a = regByte r ∧ v = if s.fl.getLsbD 0 then s.pc + 2#8 else s.reg r
  | .jgt a => ∃ r, a = regByte r ∧ v = if s.fl.getLsbD 1 then s.reg r else s.pc + 2#8
  | .jlt a => ∃ r, a = regByte r ∧ v = if s.fl.getLsbD 2 then s.reg r else s.pc + 2#8
  | .jle a => ∃ r, a = regByte r ∧ v = if s.fl.getLsbD 0 || s.fl.getLsbD 2 then s.reg r else s.pc + 2#8
  | .jge a => ∃ r, a = regByte r ∧ v = if s.fl.getLsbD 0 || s.fl.getLsbD 1 then s.reg r else s.pc + 2#8
  | .add _ _ | .sub _ _ | .mul _ _ | .div _ _ | .mod _ _ | .inc _ | .dec _ | .cmp _ _ | .and _ _ | .not _ | .or _ _
  | .xor _ _ | .shl _ _ | .shr _ _ | .nop | .hlt | .ldi _ _ | .push _ | .pop _ | .prn _ => False

/-- A DIV or MOD whose operands name registers and whose divisor is zero. -/
def DividesByZero (i : Instr) (s : State) : Prop :=
  ∃ ra rb, (i = .div (regByte ra) (regByte rb) ∨ i = .mod (regByte ra) (regByte rb)) ∧ s.reg rb = 0#8

end Sys2Proof.Claims

open Sys2Proof Sys2Proof.Machine Sys2Proof.Claims

/-! Encoding. -/

/-- Words written out from the table of R58 decode to the instruction they stand for, one or more of each family. The values
are decision D1 (log entry 8). -/
def Obligations.WordsOfEveryFamilyDecode : Prop :=
  decode [0b10100001#8, 3#8, 4#8] = .ok (.sub 3#8 4#8, []) ∧
    decode [0b01101001#8, 7#8] = .ok (.not 7#8, []) ∧
    decode [0b10100111#8, 0#8, 1#8] = .ok (.cmp 0#8 1#8, []) ∧
    decode [0b01010000#8, 2#8] = .ok (.call 2#8, []) ∧
    decode [0b00010001#8] = .ok (.ret, []) ∧
    decode [0b01011010#8, 5#8] = .ok (.jge 5#8, []) ∧
    decode [0b10000010#8, 6#8, 200#8] = .ok (.ldi 6#8 200#8, []) ∧
    decode [0b01000101#8, 1#8] = .ok (.push 1#8, []) ∧
    decode [0b00000001#8] = .ok (.hlt, [])

/-- Decode and encode agree both ways, on every instruction and every list of bytes: no bit of an operand is dropped and no
bytes have two readings. -/
def Obligations.DecodeAndEncodeAgree : Prop :=
  (∀ (i : Instr) (rest : List Byte), decode (encode i ++ rest) = .ok (i, rest)) ∧
    ∀ (bytes : List Byte) (i : Instr) (rest : List Byte), decode bytes = .ok (i, rest) → bytes = encode i ++ rest

/-- R58, R59: a word is canonical exactly when it is one of the 29 (decisions D1, D2; log entries 8, 9). -/
def Obligations.ExactlyTheTwentyNineWordsDecode : Prop :=
  canonicalWords.length = 29 ∧ canonicalWords.Nodup ∧
    ∀ ir : Byte, (decodeWord ir).isSome = true ↔ ir.toNat ∈ canonicalWords

/-- R50, R51, R55 to R57, R59: the fields of the word say which category executes it and how long it is; a word that is not
HALT is canonical exactly when its category has its opcode with that operand count and not both category bits are set; and
then the instruction decoded from it is the operation that the opcode selects inside the category. The word 01 is HALT. The
opcode values are decision D1, the reserved words decision D2 (log entries 8, 9). -/
def Obligations.WordFieldsSelectTheInstruction : Prop :=
  (∀ i : Instr, (encode i).length = (wordFields i.word).nops + 1 ∧ i.nops = (wordFields i.word).nops ∧
      (i.unit = .loop ↔ i.word = 0x01#8) ∧ (i.unit ≠ .loop → i.unit = wordCategory i.word)) ∧
    (∀ ir : Byte, ir ≠ 0x01#8 →
      ((decodeWord ir).isSome = true ↔
        ((wordFields ir).isAlu = true ∧ (wordFields ir).isPcm = false ∧
            ((wordFields ir).opcode, (wordFields ir).nops) ∈ aluOpcodes) ∨
          ((wordFields ir).isAlu = false ∧ (wordFields ir).isPcm = true ∧
            ((wordFields ir).opcode, (wordFields ir).nops) ∈ pcmOpcodes) ∨
          ((wordFields ir).isAlu = false ∧ (wordFields ir).isPcm = false ∧
            ((wordFields ir).opcode, (wordFields ir).nops) ∈ miscOpcodes))) ∧
    (∀ (ir a b : Byte) (rest rest' : List Byte) (i : Instr), ir ≠ 0x01#8 → decode (ir :: a :: b :: rest) = .ok (i, rest') →
      operationOf a b (wordCategory ir) (wordFields ir).opcode = some i) ∧
    ∀ rest : List Byte, decode (0x01#8 :: rest) = .ok (.hlt, rest)

/-! The step. -/

/-- R115: when the bytes at PC decode to an instruction, a step of the running machine is that instruction's own rule; step
adds nothing around it. -/
def Obligations.StepRunsTheDecodedInstruction : Prop :=
  ∀ (s : State) (i : Instr) (rest : List Byte), s.run = .running → decode (bytesAtPc s) = .ok (i, rest) →
    step s = exec i s

/-- R131: a word that is none of the 29 raises UnsupportedOperation, whatever follows it and wherever it lies, and nothing but
RUN changes (decisions D1, D2, D10; log entries 8, 9, 15). -/
def Obligations.ReservedWordRaisesUnsupportedOperation : Prop :=
  ∀ s : State, s.run = .running → (s.byte s.pc.toNat).toNat ∉ canonicalWords →
    step s = .next { s with run := .faulted .unsupportedOperation }

/-- R54, R132 MEM_ADDRESS: an instruction whose operand bytes do not all lie at addresses up to 255 raises AddressingError
and nothing but RUN changes (decisions D10, D13; log entries 15, 18). -/
def Obligations.OperandBeyondMemoryRaisesAddressingError : Prop :=
  ∀ (s : State) (i : Instr), s.run = .running → s.byte s.pc.toNat = i.word → 255 < s.pc.toNat + i.nops →
    step s = .next { s with run := .faulted .addressingError }

/-- R115, R138, R145: in HALTED and FAULTED the machine has no step. -/
def Obligations.StoppedMachineHasNoStep : Prop :=
  ∀ s : State, (s.run = .halted → step s = .fault .noStepHalted) ∧
    (∀ c, s.run = .faulted c → step s = .fault (.noStepFaulted c)) ∧
    (s.run = .running → ∃ t, step s = .next t)

/-! Reset and load. -/

/-- R23, R150: every register 0, PC 0, SP 255, FL 0 (decision D4, log entry 10), RUNNING, every memory cell 0 (decision D14,
log entry 17), no output. -/
def Obligations.ResetLeavesTheStatedValues : Prop :=
  (∀ r, State.reset.reg r = 0#8) ∧ State.reset.pc = 0#8 ∧ State.reset.sp = 255#8 ∧ State.reset.fl = 0#8 ∧
    State.reset.run = .running ∧ (∀ a, State.reset.byte a = 0#8) ∧ State.reset.out = []

/-- The state after reset meets the invariant that every step keeps. -/
def Obligations.ResetMeetsTheInvariant : Prop :=
  State.reset.inv = true

/-- From any state with canonical memory and a legal FL (R18), every step gives such a state again. -/
def Obligations.EveryStepKeepsTheInvariant : Prop :=
  ∀ s t : State, s.inv = true → step s = .next t → t.inv = true

/-- R151: an image of at most 256 bytes lies from address 0 on in order, every other cell and every other piece of state is as
before, and the invariant is kept; a longer image is refused (decision D14, log entry 17). -/
def Obligations.LoadPlacesTheImage : Prop :=
  ∀ (image : List Byte) (s : State), s.inv = true →
    (256 < image.length → s.load image = none) ∧
    (image.length ≤ 256 → ∃ t, s.load image = some t ∧
      (∀ k, (h : k < image.length) → t.byte k = image[k]) ∧
      (∀ a, image.length ≤ a → t.byte a = s.byte a) ∧
      t.regs = s.regs ∧ t.pc = s.pc ∧ t.sp = s.sp ∧ t.fl = s.fl ∧ t.run = s.run ∧ t.out = s.out ∧ t.inv = true)

/-- The model's own placing of a table word (log entry 6): the very next step runs the instruction the decoder reads from it,
wherever the longest instruction fits. -/
def Obligations.PlacedWordRunsNext : Prop :=
  ∀ (s : State) (nbits w : Nat) (i : Instr), s.inv = true → s.run = .running → s.pc.toNat ≤ 253 →
    decodeTableWord nbits w = some i → step (s.withFetchWord nbits w) = exec i (s.withFetchWord nbits w)

/-! The primitives. -/

/-- R10: a write of a register, any register and any value, is read back, changes no other register, and touches neither SP
nor FL nor PC; a write of SP, FL or PC touches no register. -/
def Obligations.RegistersAreIndependentCells : Prop :=
  ∀ (s : State) (r : Fin 8) (v : Byte),
    (s.setReg r v).reg r = v ∧ RegsKeptBut r s (s.setReg r v) ∧ (s.setReg r v).sp = s.sp ∧ (s.setReg r v).fl = s.fl ∧
      (s.setReg r v).pc = s.pc ∧ RegsKept s (s.setSp v) ∧ RegsKept s (s.setFl v) ∧ RegsKept s (s.setPc v)

/-- R12: `RegIdx` answers the index for a byte up to 7 and raises above; and every instruction that names a register by a byte
above 7 raises AddressingError before it reads or writes anything: nothing but RUN changes, PC included. -/
def Obligations.RegisterIndexIsChecked : Prop :=
  (∀ b : Byte, (∀ h : b.toNat ≤ 7, regIdx b = .ok ⟨b.toNat, Nat.lt_succ_of_le h⟩) ∧
      (7 < b.toNat → ∃ e, regIdx b = .error e ∧ e.cause = .addressingError)) ∧
    ∀ (i : Instr) (s : State), (∃ b ∈ i.regOperands, 7 < b.toNat) →
      exec i s = .next { s with run := .faulted .addressingError }

/-- R31: `MemRead` and `MemWrite` at every integer address: AddressingError outside 0 to 255, the cell inside; a write is read
back and leaves every other cell and everything else alone. -/
def Obligations.MemoryPrimitivesCheckAndAccess : Prop :=
  ∀ (addr : Int) (v : Byte) (s : State), s.mem.wf = true →
    ((addr < 0 ∨ 255 < addr) → memRead addr s = .error .memAddress ∧ memWrite addr v s = .error .memAddress) ∧
    ∀ a : Nat, addr = a → a ≤ 255 →
      memRead addr s = .ok (s.byte a) ∧
      ∃ t, memWrite addr v s = .ok t ∧ memRead addr t = .ok v ∧ (∀ b, b ≠ a → t.byte b = s.byte b) ∧
        t = { s with mem := t.mem } ∧ t.mem.wf = true

/-- A canonical memory is determined by what its cells read as: the model's representation (log entry 4). -/
def Obligations.CanonicalMemoriesWithEqualCellsAreEqual : Prop :=
  ∀ s t : State, s.mem.wf = true → t.mem.wf = true → (∀ a, a < 256 → s.byte a = t.byte a) → s.mem = t.mem

/-- R37: `Push(v)` at `sp = 0` raises and gives no state; otherwise SP is one lower and `v` lies at the new SP. PUSH and CALL
use it: at `sp = 0` each raises AddressingError with SP and memory unchanged. -/
def Obligations.PushChecksThenStores : Prop :=
  ∀ (v : Byte) (s : State), s.mem.wf = true →
    (s.sp = 0#8 → (∃ e, pushByte v s = .error e ∧ e.cause = .addressingError) ∧
      ∀ r, (∃ t, exec (.push (regByte r)) s = .next t ∧ t.run = .faulted .addressingError ∧ t.sp = s.sp ∧ MemKept s t) ∧
        ∃ t, exec (.call (regByte r)) s = .next t ∧ t.run = .faulted .addressingError ∧ t.sp = s.sp ∧ MemKept s t) ∧
    (s.sp ≠ 0#8 → ∃ t, pushByte v s = .ok t ∧ t.sp.toNat = s.sp.toNat - 1 ∧ t.byte t.sp.toNat = v ∧
      (∀ b, b ≠ t.sp.toNat → t.byte b = s.byte b) ∧ t = { s with sp := t.sp, mem := t.mem })

/-- R38: `Pop()` at `sp = 255` raises and gives no state (decision D10, log entry 15); otherwise it answers the byte at the old
SP, SP is one higher, and the cell keeps its value. -/
def Obligations.PopChecksThenReads : Prop :=
  ∀ s : State,
    (s.sp = 255#8 → ∃ e, popByte s = .error e ∧ e.cause = .addressingError) ∧
    (s.sp ≠ 255#8 → ∃ t, popByte s = .ok (s.byte s.sp.toNat, t) ∧ t.sp.toNat = s.sp.toNat + 1 ∧
      t = { s with sp := t.sp } ∧ t.byte s.sp.toNat = s.byte s.sp.toNat)

/-! ALU instructions. -/

/-- R71, R72, R73, R85: the results modulo 256; the same register may be both operands. -/
def Obligations.AddSubMulResults : Prop :=
  ∀ (s : State) (ra rb : Fin 8), s.pc.toNat ≤ 252 →
    (∃ t, exec (.add (regByte ra) (regByte rb)) s = .next t ∧
      (t.reg ra).toNat = ((s.reg ra).toNat + (s.reg rb).toNat) % 256 ∧ WritesOnlyReg ra 3 s t) ∧
    (∃ t, exec (.sub (regByte ra) (regByte rb)) s = .next t ∧
      ((t.reg ra).toNat : Int) = ((s.reg ra).toNat - (s.reg rb).toNat : Int) % 256 ∧ WritesOnlyReg ra 3 s t) ∧
    (∃ t, exec (.mul (regByte ra) (regByte rb)) s = .next t ∧
      (t.reg ra).toNat = ((s.reg ra).toNat * (s.reg rb).toNat) % 256 ∧ WritesOnlyReg ra 3 s t)

/-- R74, R75: with a divisor other than 0, the unsigned quotient and remainder (decision D5, log entry 11), which meet the
division identity of R75. -/
def Obligations.DivModResults : Prop :=
  ∀ (s : State) (ra rb : Fin 8), s.pc.toNat ≤ 252 → s.reg rb ≠ 0#8 →
    ∃ t u, exec (.div (regByte ra) (regByte rb)) s = .next t ∧ exec (.mod (regByte ra) (regByte rb)) s = .next u ∧
      (t.reg ra).toNat = (s.reg ra).toNat / (s.reg rb).toNat ∧
      (u.reg ra).toNat = (s.reg ra).toNat % (s.reg rb).toNat ∧
      (s.reg ra).toNat = (t.reg ra).toNat * (s.reg rb).toNat + (u.reg ra).toNat ∧
      (u.reg ra).toNat < (s.reg rb).toNat ∧ WritesOnlyReg ra 3 s t ∧ WritesOnlyReg ra 3 s u

/-- R133: a step ends in DivisionByZero exactly when it runs a DIV or MOD whose divisor register holds 0; the destination
register is not written and no further instruction runs. -/
def Obligations.DivisionByZeroExactlyFromDivAndMod : Prop :=
  ∀ s t : State, step s = .next t →
    (t.run = .faulted .divisionByZero ↔ ∃ i, fetchInstr s = .ok i ∧ DividesByZero i s) ∧
    (t.run = .faulted .divisionByZero → RegsKept s t ∧ ∀ u, step t ≠ .next u)

/-- R76, R77: one more and one less modulo 256. -/
def Obligations.IncDecResults : Prop :=
  ∀ (s : State) (ra : Fin 8), s.pc.toNat ≤ 253 →
    (∃ t, exec (.inc (regByte ra)) s = .next t ∧ (t.reg ra).toNat = ((s.reg ra).toNat + 1) % 256 ∧
      WritesOnlyReg ra 2 s t) ∧
    (∃ t, exec (.dec (regByte ra)) s = .next t ∧ ((t.reg ra).toNat : Int) = ((s.reg ra).toNat - 1 : Int) % 256 ∧
      WritesOnlyReg ra 2 s t)

/-- R80: every bit of the register inverted, `255 - x[a]` (decision D7, log entry 13). -/
def Obligations.NotInvertsEveryBit : Prop :=
  ∀ (s : State) (ra : Fin 8), s.pc.toNat ≤ 253 →
    ∃ t, exec (.not (regByte ra)) s = .next t ∧ (t.reg ra).toNat = 255 - (s.reg ra).toNat ∧
      (∀ k, k < 8 → (t.reg ra).getLsbD k = !(s.reg ra).getLsbD k) ∧ WritesOnlyReg ra 2 s t

/-- R79, R81, R82: bit by bit. -/
def Obligations.AndOrXorBits : Prop :=
  ∀ (s : State) (ra rb : Fin 8), s.pc.toNat ≤ 252 →
    (∃ t, exec (.and (regByte ra) (regByte rb)) s = .next t ∧
      (∀ k, (t.reg ra).getLsbD k = ((s.reg ra).getLsbD k && (s.reg rb).getLsbD k)) ∧ WritesOnlyReg ra 3 s t) ∧
    (∃ t, exec (.or (regByte ra) (regByte rb)) s = .next t ∧
      (∀ k, (t.reg ra).getLsbD k = ((s.reg ra).getLsbD k || (s.reg rb).getLsbD k)) ∧ WritesOnlyReg ra 3 s t) ∧
    (∃ t, exec (.xor (regByte ra) (regByte rb)) s = .next t ∧
      (∀ k, (t.reg ra).getLsbD k = ((s.reg ra).getLsbD k ^^ (s.reg rb).getLsbD k)) ∧ WritesOnlyReg ra 3 s t)

/-- R83, R84: the shift amount is the whole value of `x[b]`; 8 or more gives 0; zeros enter at both ends (decisions D5, D6; log
entries 11, 12). -/
def Obligations.ShiftResults : Prop :=
  ∀ (s : State) (ra rb : Fin 8), s.pc.toNat ≤ 252 →
    (∃ t, exec (.shl (regByte ra) (regByte rb)) s = .next t ∧
      (t.reg ra).toNat = (s.reg ra).toNat * 2 ^ (s.reg rb).toNat % 256 ∧
      (8 ≤ (s.reg rb).toNat → t.reg ra = 0#8) ∧ WritesOnlyReg ra 3 s t) ∧
    (∃ t, exec (.shr (regByte ra) (regByte rb)) s = .next t ∧
      (t.reg ra).toNat = (s.reg ra).toNat / 2 ^ (s.reg rb).toNat ∧
      (8 ≤ (s.reg rb).toNat → t.reg ra = 0#8) ∧ WritesOnlyReg ra 3 s t)

/-- R78: exactly one of E, G, L is set, by the unsigned comparison (decisions D3, D5; log entries 10, 11); bits 7:3 are 0, no
register is written. -/
def Obligations.CmpSetsExactlyOneFlag : Prop :=
  ∀ (s : State) (ra rb : Fin 8), s.pc.toNat ≤ 252 →
    ∃ t, exec (.cmp (regByte ra) (regByte rb)) s = .next t ∧
      ((s.reg ra).toNat = (s.reg rb).toNat → t.fl = 0b001#8) ∧
      ((s.reg ra).toNat > (s.reg rb).toNat → t.fl = 0b010#8) ∧
      ((s.reg ra).toNat < (s.reg rb).toNat → t.fl = 0b100#8) ∧
      RegsKept s t ∧ t.pc.toNat = s.pc.toNat + 3 ∧ t.sp = s.sp ∧ t.run = s.run ∧ t.out = s.out ∧ MemKept s t

/-- R86: two ALU instructions with the same word (the same opcode), on any registers, in any two states in which the values of
their operand registers agree and both complete, have the same result (the register written, or FL for CMP), whatever the
register numbers and the rest of the two states are. -/
def Obligations.AluResultDependsOnlyOnItsOperands : Prop :=
  ∀ (i i' : Instr) (rs rs' : List (Fin 8)) (s s' t t' : State), i.unit = .alu → i.word = i'.word →
    i.regOperands = rs.map regByte → i'.regOperands = rs'.map regByte → rs.map s.reg = rs'.map s'.reg →
    s.run = .running → s'.run = .running → exec i s = .next t → exec i' s' = .next t' →
    t.run = .running → t'.run = .running →
    (∀ r r', rs.head? = some r → rs'.head? = some r' → t.reg r = t'.reg r') ∧
      ((∃ a b, i = .cmp a b) → t.fl = t'.fl)

/-! PCM instructions. -/

/-- R91: with room on the stack and a return address that fits (decision D9, log entry 14), CALL pushes `pc + 2` and goes to
`x[a]`. -/
def Obligations.CallPushesTheReturnAddress : Prop :=
  ∀ (s : State) (ra : Fin 8), s.mem.wf = true → s.sp ≠ 0#8 → s.pc.toNat ≤ 253 →
    ∃ t, exec (.call (regByte ra)) s = .next t ∧ t.pc = s.reg ra ∧ PushesByte (s.pc + 2#8) s t ∧
      (s.pc + 2#8).toNat = s.pc.toNat + 2

/-- R92: with a stack that is not empty, RET goes to the byte on top of it, at any PC; the cell keeps its value. -/
def Obligations.RetGoesToTheTopOfTheStack : Prop :=
  ∀ s : State, s.sp ≠ 255#8 →
    ∃ t, exec .ret s = .next t ∧ t.pc = s.byte s.sp.toNat ∧ t.sp.toNat = s.sp.toNat + 1 ∧ RegsKept s t ∧ t.fl = s.fl ∧
      t.run = s.run ∧ t.out = s.out ∧ MemKept s t

/-- R93: JMP goes to `x[a]`, at any PC, its own address included. -/
def Obligations.JmpGoesToTheRegister : Prop :=
  ∀ (s : State) (ra : Fin 8), ∃ t, exec (.jmp (regByte ra)) s = .next t ∧ t.pc = s.reg ra ∧ WritesOnlyPc s t

/-- R94 to R99: a conditional jump whose condition holds goes to `x[a]`, at any PC; FL bit 0 is E, bit 1 is G, bit 2 is L, and
JNE is taken while FL is unset (decisions D3, D4; log entry 10). -/
def Obligations.ConditionalJumpTaken : Prop :=
  ∀ (s : State) (ra : Fin 8),
    (s.fl.getLsbD 0 = true → ∃ t, exec (.jeq (regByte ra)) s = .next t ∧ t.pc = s.reg ra ∧ WritesOnlyPc s t) ∧
    (s.fl.getLsbD 0 = false → ∃ t, exec (.jne (regByte ra)) s = .next t ∧ t.pc = s.reg ra ∧ WritesOnlyPc s t) ∧
    (s.fl.getLsbD 1 = true → ∃ t, exec (.jgt (regByte ra)) s = .next t ∧ t.pc = s.reg ra ∧ WritesOnlyPc s t) ∧
    (s.fl.getLsbD 2 = true → ∃ t, exec (.jlt (regByte ra)) s = .next t ∧ t.pc = s.reg ra ∧ WritesOnlyPc s t) ∧
    (s.fl.getLsbD 0 = true ∨ s.fl.getLsbD 2 = true →
      ∃ t, exec (.jle (regByte ra)) s = .next t ∧ t.pc = s.reg ra ∧ WritesOnlyPc s t) ∧
    (s.fl.getLsbD 0 = true ∨ s.fl.getLsbD 1 = true →
      ∃ t, exec (.jge (regByte ra)) s = .next t ∧ t.pc = s.reg ra ∧ WritesOnlyPc s t)

/-- R94 to R100: a conditional jump whose condition does not hold goes to the instruction after it, `pc + 2` (decisions D3, D4,
D8; log entries 10, 14). -/
def Obligations.ConditionalJumpNotTaken : Prop :=
  ∀ (s : State) (ra : Fin 8), s.pc.toNat ≤ 253 →
    (s.fl.getLsbD 0 = false →
      ∃ t, exec (.jeq (regByte ra)) s = .next t ∧ t.pc.toNat = s.pc.toNat + 2 ∧ WritesOnlyPc s t) ∧
    (s.fl.getLsbD 0 = true →
      ∃ t, exec (.jne (regByte ra)) s = .next t ∧ t.pc.toNat = s.pc.toNat + 2 ∧ WritesOnlyPc s t) ∧
    (s.fl.getLsbD 1 = false →
      ∃ t, exec (.jgt (regByte ra)) s = .next t ∧ t.pc.toNat = s.pc.toNat + 2 ∧ WritesOnlyPc s t) ∧
    (s.fl.getLsbD 2 = false →
      ∃ t, exec (.jlt (regByte ra)) s = .next t ∧ t.pc.toNat = s.pc.toNat + 2 ∧ WritesOnlyPc s t) ∧
    (s.fl.getLsbD 0 = false → s.fl.getLsbD 2 = false →
      ∃ t, exec (.jle (regByte ra)) s = .next t ∧ t.pc.toNat = s.pc.toNat + 2 ∧ WritesOnlyPc s t) ∧
    (s.fl.getLsbD 0 = false → s.fl.getLsbD 1 = false →
      ∃ t, exec (.jge (regByte ra)) s = .next t ∧ t.pc.toNat = s.pc.toNat + 2 ∧ WritesOnlyPc s t)

/-- R102: a CALL that executes at `c` with `sp = s`, and later, in any state with SP at `s - 1` and that cell unchanged, a RET:
then PC is `c + 2` and SP is `s`. CALL saves no register, and a RET that finds another byte on top takes that byte as
its target. -/
def Obligations.RetReturnsAfterItsCall : Prop :=
  ∀ (s t u : State) (ra : Fin 8), s.mem.wf = true → s.run = .running → exec (.call (regByte ra)) s = .next t →
    t.run = .running →
    RegsKept s t ∧
    (u.sp ≠ 255#8 → ∃ v, exec .ret u = .next v ∧ v.pc = u.byte u.sp.toNat) ∧
    (u.sp.toNat = s.sp.toNat - 1 → u.byte (s.sp.toNat - 1) = t.byte (s.sp.toNat - 1) →
      ∃ v, exec .ret u = .next v ∧ v.pc.toNat = s.pc.toNat + 2 ∧ v.sp = s.sp)

/-! MISC instructions and HALT. -/

/-- R106: NOP changes PC only. -/
def Obligations.NopAdvancesPc : Prop :=
  ∀ s : State, s.pc.toNat ≤ 254 →
    ∃ t, exec .nop s = .next t ∧ t.pc.toNat = s.pc.toNat + 1 ∧ WritesOnlyPc s t

/-- R107: LDI puts the whole immediate byte into the register, any register, any byte. -/
def Obligations.LdiLoadsTheImmediate : Prop :=
  ∀ (s : State) (ra : Fin 8) (imm : Byte), s.pc.toNat ≤ 252 →
    ∃ t, exec (.ldi (regByte ra) imm) s = .next t ∧ t.reg ra = imm ∧ WritesOnlyReg ra 3 s t

/-- R108: with room on the stack, PUSH stores `x[a]` at `sp - 1`. -/
def Obligations.PushStoresTheRegister : Prop :=
  ∀ (s : State) (ra : Fin 8), s.mem.wf = true → s.sp ≠ 0#8 → s.pc.toNat ≤ 253 →
    ∃ t, exec (.push (regByte ra)) s = .next t ∧ PushesByte (s.reg ra) s t ∧ t.pc.toNat = s.pc.toNat + 2

/-- R109: with a stack that is not empty, POP reads the byte at SP into `x[a]`; the cell keeps its value. -/
def Obligations.PopLoadsTheTopOfTheStack : Prop :=
  ∀ (s : State) (ra : Fin 8), s.sp ≠ 255#8 → s.pc.toNat ≤ 253 →
    ∃ t, exec (.pop (regByte ra)) s = .next t ∧ t.reg ra = s.byte s.sp.toNat ∧ RegsKeptBut ra s t ∧
      t.sp.toNat = s.sp.toNat + 1 ∧ t.pc.toNat = s.pc.toNat + 2 ∧ t.fl = s.fl ∧ t.run = s.run ∧ t.out = s.out ∧
      MemKept s t

/-- R110: a PUSH that executes and then a POP of any register: that register holds `x[a]`, SP and FL are as before, memory
changed only at `sp - 1`, PC is 4 higher. With the same register it holds what it held. -/
def Obligations.PushThenPopMovesTheByte : Prop :=
  ∀ (s : State) (ra rb : Fin 8), s.mem.wf = true → s.sp ≠ 0#8 → s.pc.toNat ≤ 251 →
    ∃ t u, exec (.push (regByte ra)) s = .next t ∧ exec (.pop (regByte rb)) t = .next u ∧ u.reg rb = s.reg ra ∧
      RegsKeptBut rb s u ∧ u.sp = s.sp ∧ u.fl = s.fl ∧ u.run = s.run ∧ u.out = s.out ∧ u.pc.toNat = s.pc.toNat + 4 ∧
      ∀ a : Nat, pushAddr s = a → u.byte a = s.reg ra ∧ ∀ b, b ≠ a → u.byte b = s.byte b

/-- R111, R21: PRN appends `x[a]` to the output, which the host prints as one more unsigned decimal line (decisions D5, D17; log
entries 11, 20); nothing else but PC changes. -/
def Obligations.PrnEmitsTheRegister : Prop :=
  ∀ (s : State) (ra : Fin 8), s.pc.toNat ≤ 253 →
    ∃ t, exec (.prn (regByte ra)) s = .next t ∧ t.out = s.out ++ [s.reg ra] ∧
      hostLines t = hostLines s ++ [toString (s.reg ra).toNat] ∧ RegsKept s t ∧ t.pc.toNat = s.pc.toNat + 2 ∧
      t.sp = s.sp ∧ t.fl = s.fl ∧ t.run = s.run ∧ MemKept s t

/-- R116: HLT changes RUN only, at any PC (PC stays: decision D18, log entry 21), and then there is no step. -/
def Obligations.HltHaltsAndStays : Prop :=
  ∀ s : State, ∃ t, exec .hlt s = .next t ∧ t.run = .halted ∧ RegsKept s t ∧ t.pc = s.pc ∧ t.sp = s.sp ∧ t.fl = s.fl ∧
    t.out = s.out ∧ MemKept s t ∧ step t = .fault .noStepHalted

/-- R55: a step ends HALTED exactly when the word at PC is `00000001` on all 8 bits; the words with its low six bits and
another operand count raise UnsupportedOperation. -/
def Obligations.HaltIsRecognisedByTheWholeWord : Prop :=
  ∀ s : State, s.run = .running →
    (∀ t, step s = .next t → (t.run = .halted ↔ s.byte s.pc.toNat = 0b00000001#8)) ∧
    (s.byte s.pc.toNat = 0x41#8 ∨ s.byte s.pc.toNat = 0x81#8 ∨ s.byte s.pc.toNat = 0xC1#8 →
      ∃ t, step s = .next t ∧ t.run = .faulted .unsupportedOperation)

/-! Faults. -/

/-- R37, R38, R132 STACK_RANGE: at `sp = 0` PUSH and CALL, at `sp = 255` POP and RET raise AddressingError, at any PC, and
nothing but RUN changes (decision D10, log entry 15). -/
def Obligations.StackRangeFaults : Prop :=
  ∀ (s : State) (ra : Fin 8),
    (s.sp = 0#8 → exec (.push (regByte ra)) s = .next { s with run := .faulted .addressingError } ∧
      exec (.call (regByte ra)) s = .next { s with run := .faulted .addressingError }) ∧
    (s.sp = 255#8 → exec (.pop (regByte ra)) s = .next { s with run := .faulted .addressingError } ∧
      exec .ret s = .next { s with run := .faulted .addressingError })

/-- R15, R132 PC_RANGE: an ALU or MISC instruction, a CALL or a jump not taken whose successor address would be above 255 raises
AddressingError and nothing but RUN changes; a division by zero is reported first (decisions D8 to D11; log entries 14,
15). -/
def Obligations.SuccessorBeyondMemoryRaisesAddressingError : Prop :=
  ∀ (i : Instr) (s : State), 255 < s.pc.toNat + i.nops + 1 → ¬ DividesByZero i s →
    (i.unit = .alu ∨ i.unit = .misc ∨ (∃ a, i = .call a) ∨ (∃ a, i = .jeq a ∧ s.fl.getLsbD 0 = false) ∨
      (∃ a, i = .jne a ∧ s.fl.getLsbD 0 = true) ∨ (∃ a, i = .jgt a ∧ s.fl.getLsbD 1 = false) ∨
      (∃ a, i = .jlt a ∧ s.fl.getLsbD 2 = false) ∨
      (∃ a, i = .jle a ∧ s.fl.getLsbD 0 = false ∧ s.fl.getLsbD 2 = false) ∨
      (∃ a, i = .jge a ∧ s.fl.getLsbD 0 = false ∧ s.fl.getLsbD 1 = false)) →
    exec i s = .next { s with run := .faulted .addressingError }

/-- R137: a step that ends FAULTED leaves everything but RUN as it was: no partial effect, PC on the faulting instruction
(decision D10, log entry 15). -/
def Obligations.FaultsArePrecise : Prop :=
  ∀ (s t : State) (c : Cause), step s = .next t → t.run = .faulted c → t = { s with run := .faulted c }

/-- R136: the cases in which the order of the checks shows (decision D11, log entry 15): a reserved word beyond all operands
reports UnsupportedOperation; a division by zero at `pc = 253` reports DivisionByZero; a divisor index above 7 reports
AddressingError, whatever the dividend. -/
def Obligations.FaultPriority : Prop :=
  ∀ (s : State) (ra rb : Fin 8) (b : Byte), s.run = .running →
    (254 ≤ s.pc.toNat → (s.byte s.pc.toNat).toNat ∉ canonicalWords →
      ∃ t, step s = .next t ∧ t.run = .faulted .unsupportedOperation) ∧
    (s.pc.toNat = 253 → s.reg rb = 0#8 →
      (∃ t, exec (.div (regByte ra) (regByte rb)) s = .next t ∧ t.run = .faulted .divisionByZero) ∧
      ∃ t, exec (.mod (regByte ra) (regByte rb)) s = .next t ∧ t.run = .faulted .divisionByZero) ∧
    (7 < b.toNat →
      (∃ t, exec (.div (regByte ra) b) s = .next t ∧ t.run = .faulted .addressingError) ∧
      ∃ t, exec (.mod (regByte ra) b) s = .next t ∧ t.run = .faulted .addressingError)

/-! The whole machine. -/

/-- R117: after a step that neither faults nor halts, either the instruction is not PCM and PC is higher by the operand count of
its word plus 1, or it is PCM and PC is what its own rule sets (`pcmTarget`, R91 to R99; the FL bits are decision D3 and JNE
while FL is unset is decision D4, log entry 10). -/
def Obligations.PcIsUpdatedExactlyOnce : Prop :=
  ∀ s t : State, step s = .next t → t.run = .running →
    ∃ i, fetchInstr s = .ok i ∧
      ((i.unit ≠ .pcm ∧ t.pc.toNat = s.pc.toNat + (wordFields (s.byte s.pc.toNat)).nops + 1) ∨
        (i.unit = .pcm ∧ pcmTarget i s t.pc))

/-- R122: which unit may change which state. An ALU instruction changes `x[a]` and, CMP only, FL; a PCM instruction no register,
memory by CALL only, SP by CALL and RET; a MISC instruction registers by LDI and POP, memory by PUSH, SP by PUSH and POP,
output by PRN; RUN only by a fault; the loop's HALT changes RUN only. -/
def Obligations.UnitsChangeOnlyTheirState : Prop :=
  ∀ (i : Instr) (s t : State), exec i s = .next t →
    (i.unit = .alu →
      (∀ r, t.reg r ≠ s.reg r → i.regOperands.head? = some (regByte r) ∧ ¬ ∃ a b, i = .cmp a b) ∧
      (t.fl ≠ s.fl → ∃ a b, i = .cmp a b) ∧ MemKept s t ∧ t.sp = s.sp ∧ t.out = s.out ∧
      (t.pc ≠ s.pc → t.pc.toNat = s.pc.toNat + i.nops + 1) ∧ (t.run = s.run ∨ ∃ c, t.run = .faulted c)) ∧
    (i.unit = .pcm →
      RegsKept s t ∧ t.fl = s.fl ∧ (∀ a, t.byte a ≠ s.byte a → ∃ b, i = .call b) ∧
      (t.sp ≠ s.sp → i = .ret ∨ ∃ b, i = .call b) ∧ t.out = s.out ∧ (t.run = s.run ∨ ∃ c, t.run = .faulted c)) ∧
    (i.unit = .misc →
      (∀ r, t.reg r ≠ s.reg r → i = .pop (regByte r) ∨ ∃ v, i = .ldi (regByte r) v) ∧ t.fl = s.fl ∧
      (∀ a, t.byte a ≠ s.byte a → ∃ b, i = .push b) ∧ (t.sp ≠ s.sp → ∃ b, i = .push b ∨ i = .pop b) ∧
      (t.out ≠ s.out → ∃ b, i = .prn b) ∧ (t.pc ≠ s.pc → t.pc.toNat = s.pc.toNat + i.nops + 1) ∧
      (t.run = s.run ∨ ∃ c, t.run = .faulted c)) ∧
    (i.unit = .loop → RegsKept s t ∧ t.fl = s.fl ∧ MemKept s t ∧ t.sp = s.sp ∧ t.pc = s.pc ∧ t.out = s.out ∧
      t.run = .halted)

/-- R17, R32: over any step, a byte of memory changes only at `sp - 1`, and only when SP moves down by one, by a PUSH or CALL; SP
moves up only by one, by a POP or RET; SP never leaves 0 to 255. -/
def Obligations.MemoryChangesOnlyBelowTheStackPointer : Prop :=
  ∀ s t : State, s.mem.wf = true → step s = .next t →
    (t.sp = s.sp ∧ MemKept s t) ∨
    (t.sp.toNat + 1 = s.sp.toNat ∧ (∀ a, a + 1 ≠ s.sp.toNat → t.byte a = s.byte a) ∧
      ∃ r, (fetchInstr s = .ok (.push (regByte r)) ∧ t.byte t.sp.toNat = s.reg r) ∨
        (fetchInstr s = .ok (.call (regByte r)) ∧ (t.byte t.sp.toNat).toNat = s.pc.toNat + 2)) ∨
    (t.sp.toNat = s.sp.toNat + 1 ∧ MemKept s t ∧ (fetchInstr s = .ok .ret ∨ ∃ r, fetchInstr s = .ok (.pop (regByte r))))

/-- R119: the run from any state halts, faults or goes on for ever, and does only one of the three. -/
def Obligations.RunEndsInExactlyOneOfThreeWays : Prop :=
  ∀ s : State, (RunHalts s ∨ RunFaults s ∨ RunNeverEnds s) ∧ ¬ (RunHalts s ∧ RunFaults s) ∧
    ¬ (RunHalts s ∧ RunNeverEnds s) ∧ ¬ (RunFaults s ∧ RunNeverEnds s)

/-- R155: where every byte from PC to the top of memory is zero, the machine steps through NOPs to address 255 with nothing else
changed, and the next step raises AddressingError there (decisions D8, D12; log entries 14, 16). -/
def Obligations.ZeroBytesSlideToAddressingError : Prop :=
  ∀ s : State, s.run = .running → (∀ a, s.pc.toNat ≤ a → a ≤ 255 → s.byte a = 0#8) →
    (∀ n, s.pc.toNat + n ≤ 255 → runFor n s = { s with pc := s.pc + BitVec.ofNat 8 n }) ∧
    runFor (256 - s.pc.toNat) s = { s with pc := 255#8, run := .faulted .addressingError }

/-- R121, R135, R136: the step of the instruction rules is the step of the hardware view: the decoder's control signals, the
fault conditions that gate every write enable, and the datapath, for every running state and every byte `idle` on the ports
that the decoder does not read (the table rests on decisions D1 to D3, D5 to D11 and D13; log entries 8 to 15, 18). That no
port is read without need is `Obligations.ReadColumnsAreExact`. -/
def Obligations.StepIsTheStepOfTheControlSignals : Prop :=
  ∀ (idle : Byte) (s : State), s.run = .running → step s = .next (hardwareStep idle s)

/-- R121, columns `reg read` and `mem_re`: the decoder reads `x[a]`, `x[b]` or the stack byte exactly where the value on that port
can change what the instruction commits (decisions D5 to D7, D13; log entries 11 to 13, 18). -/
def Obligations.ReadColumnsAreExact : Prop :=
  ∀ i : Instr,
    ((signals i).readA = true ↔ ∃ (s : State) (x x' xb v : Byte), commit i x xb v s ≠ commit i x' xb v s) ∧
    ((signals i).readB = true ↔ ∃ (s : State) (xa x x' v : Byte), commit i xa x v s ≠ commit i xa x' v s) ∧
    ((signals i).memRe = true ↔ ∃ (s : State) (xa xb v v' : Byte), commit i xa xb v s ≠ commit i xa xb v' s)
end

