-- ==== Sys2Proof/Laws/Memory.lean ====
section
/-! SUPPORT. The laws of the memory list: read after write, the canonical form, and that a canonical memory is determined
by what its cells read as. -/

namespace Sys2Proof.Machine

theorem Memory.wfFrom_cons {lo k : Nat} {v : Byte} {m : Memory} :
    Memory.wfFrom lo ((k, v) :: m) = true ↔ (lo ≤ k ∧ k < 256 ∧ v ≠ 0#8) ∧ Memory.wfFrom (k + 1) m = true := by
  simp [Memory.wfFrom, Config.memSize, and_assoc]

theorem Memory.peek_cons (k : Nat) (v : Byte) (m : Memory) (a : Nat) :
    Memory.peek ((k, v) :: m) a = if k = a then v else m.peek a := rfl

@[simp] theorem Memory.peek_nil (a : Nat) : Memory.peek [] a = 0#8 := rfl

/-- A write leaves every other cell alone, in any list. -/
theorem Memory.peek_poke_other (m : Memory) {a b : Nat} (v : Byte) (h : b ≠ a) : (m.poke a v).peek b = m.peek b := by
  induction m with
  | nil =>
    unfold Memory.poke
    split <;> simp [Memory.peek_cons, h.symm]
  | cons c m ih =>
    obtain ⟨k, w⟩ := c
    unfold Memory.poke
    split
    · simp [Memory.peek_cons, ih]
    · split <;> split <;> simp_all [Memory.peek_cons, h.symm]

/-- Below the first address of a canonical list nothing is listed. -/
theorem Memory.peek_below {m : Memory} {lo a : Nat} (hwf : Memory.wfFrom lo m = true) (h : a < lo) :
    m.peek a = 0#8 := by
  induction m generalizing lo with
  | nil => rfl
  | cons c m ih =>
    obtain ⟨k, w⟩ := c
    rw [Memory.wfFrom_cons] at hwf
    rw [Memory.peek_cons, if_neg (by omega)]
    exact ih hwf.2 (by omega)

/-- Outside the 256 cells nothing is listed. -/
theorem Memory.peek_outside {m : Memory} {lo a : Nat} (hwf : Memory.wfFrom lo m = true) (h : 256 ≤ a) :
    m.peek a = 0#8 := by
  induction m generalizing lo with
  | nil => rfl
  | cons c m ih =>
    obtain ⟨k, w⟩ := c
    rw [Memory.wfFrom_cons] at hwf
    rw [Memory.peek_cons, if_neg (by omega)]
    exact ih hwf.2

/-- A write is read back. -/
theorem Memory.peek_poke_sameFrom {m : Memory} {lo a : Nat} (v : Byte) (hwf : Memory.wfFrom lo m = true) :
    (m.poke a v).peek a = v := by
  induction m generalizing lo with
  | nil =>
    unfold Memory.poke
    split <;> simp_all [Memory.peek_cons]
  | cons c m ih =>
    obtain ⟨k, w⟩ := c
    rw [Memory.wfFrom_cons] at hwf
    unfold Memory.poke
    split
    · rw [Memory.peek_cons, if_neg (by omega)]
      exact ih hwf.2
    · have hb : Memory.peek m a = 0#8 := Memory.peek_below hwf.2 (by omega)
      split <;> split <;> simp_all [Memory.peek_cons]

theorem Memory.peek_poke_same {m : Memory} (a : Nat) (v : Byte) (hwf : m.wf = true) : (m.poke a v).peek a = v :=
  Memory.peek_poke_sameFrom v hwf

/-- A canonical list from `lo` on is one from any lower bound. -/
theorem Memory.wfFrom_lower {m : Memory} {lo lo' : Nat} (hwf : Memory.wfFrom lo m = true) (h : lo' ≤ lo) :
    Memory.wfFrom lo' m = true := by
  cases m with
  | nil => rfl
  | cons c m =>
    obtain ⟨k, w⟩ := c
    rw [Memory.wfFrom_cons] at hwf ⊢
    exact ⟨⟨by omega, hwf.1.2⟩, hwf.2⟩

theorem Memory.poke_wfFrom {m : Memory} {lo a : Nat} (v : Byte) (hwf : Memory.wfFrom lo m = true) (hlo : lo ≤ a)
    (ha : a < 256) : Memory.wfFrom lo (m.poke a v) = true := by
  induction m generalizing lo with
  | nil =>
    unfold Memory.poke
    split
    · rfl
    · exact Memory.wfFrom_cons.2 ⟨⟨hlo, ha, by assumption⟩, rfl⟩
  | cons c m ih =>
    obtain ⟨k, w⟩ := c
    obtain ⟨hk, hm⟩ := Memory.wfFrom_cons.1 hwf
    unfold Memory.poke
    split
    · exact Memory.wfFrom_cons.2 ⟨hk, ih hm (by omega)⟩
    · by_cases hka : k = a
      · subst hka
        simp only [if_true]
        split
        · exact Memory.wfFrom_lower hm (by omega)
        · exact Memory.wfFrom_cons.2 ⟨⟨hlo, ha, by assumption⟩, hm⟩
      · simp only [hka, if_false]
        split
        · exact hwf
        · exact Memory.wfFrom_cons.2 ⟨⟨hlo, ha, by assumption⟩, Memory.wfFrom_cons.2 ⟨⟨by omega, hk.2⟩, hm⟩⟩

/-- A write of one of the 256 cells keeps the canonical form. -/
theorem Memory.poke_wf {m : Memory} {a : Nat} (v : Byte) (hwf : m.wf = true) (ha : a < 256) : (m.poke a v).wf = true :=
  Memory.poke_wfFrom v hwf (Nat.zero_le a) ha

/-- The cell at the head of a canonical list differs from every cell of a list that starts above it. -/
theorem Memory.head_listed {k : Nat} {w : Byte} {m n : Memory} {lo : Nat} (hm : Memory.wfFrom lo ((k, w) :: m) = true)
    (h : Memory.peek ((k, w) :: m) k = n.peek k) : n.peek k ≠ 0#8 := by
  rw [Memory.peek_cons, if_pos rfl] at h
  exact h ▸ (Memory.wfFrom_cons.1 hm).1.2.2

theorem Memory.extFrom {m n : Memory} {lo : Nat} (hm : Memory.wfFrom lo m = true) (hn : Memory.wfFrom lo n = true)
    (h : ∀ a, m.peek a = n.peek a) : m = n := by
  induction m generalizing n lo with
  | nil =>
    cases n with
    | nil => rfl
    | cons c n => exact absurd rfl (Memory.head_listed hn (h c.1).symm)
  | cons c m ih =>
    obtain ⟨k, w⟩ := c
    cases n with
    | nil => exact absurd rfl (Memory.head_listed hm (h k))
    | cons c' n =>
      obtain ⟨k', w'⟩ := c'
      have hm' := (Memory.wfFrom_cons.1 hm).2
      have hn' := (Memory.wfFrom_cons.1 hn).2
      have hk : k = k' := by
        rcases Nat.lt_trichotomy k k' with hlt | heq | hgt
        · refine absurd ?_ (Memory.head_listed hm (h k))
          rw [Memory.peek_cons, if_neg (by omega), Memory.peek_below hn' (by omega)]
        · exact heq
        · refine absurd ?_ (Memory.head_listed hn (h k').symm)
          rw [Memory.peek_cons, if_neg (by omega), Memory.peek_below hm' (by omega)]
      subst hk
      have hw := h k
      rw [Memory.peek_cons, Memory.peek_cons, if_pos rfl, if_pos rfl] at hw
      rw [hw, ih hm' hn' (fun a => ?_)]
      by_cases ha : k = a
      · rw [Memory.peek_below hm' (by omega), Memory.peek_below hn' (by omega)]
      · have := h a
        rwa [Memory.peek_cons, Memory.peek_cons, if_neg ha, if_neg ha] at this

/-- Equal memories are equal data. -/
theorem Memory.ext {m n : Memory} (hm : m.wf = true) (hn : n.wf = true) (h : ∀ a, m.peek a = n.peek a) : m = n :=
  Memory.extFrom hm hn h

theorem State.byte_setByte_same {s : State} (a : Nat) (v : Byte) (hwf : s.mem.wf = true) : (s.setByte a v).byte a = v :=
  Memory.peek_poke_same a v hwf

theorem State.byte_setByte_other (s : State) {a b : Nat} (v : Byte) (h : b ≠ a) : (s.setByte a v).byte b = s.byte b :=
  Memory.peek_poke_other s.mem v h

end Sys2Proof.Machine
end

