-- ==== Sys2Proof/Laws/Ops.lean ====
section
/-! SUPPORT. One lemma per shared operation that says everything it can do: when it succeeds and with what, when it raises
and in which situation. -/

namespace Sys2Proof.Machine

@[simp] theorem except_bind_ok {α β : Type} (x : α) (f : α → Except Raise β) :
    (Except.ok x >>= f) = f x := rfl

@[simp] theorem except_bind_error {α β : Type} (e : Raise) (f : α → Except Raise β) :
    ((Except.error e : Except Raise α) >>= f) = .error e := rfl

theorem narrow_eq_ofNat (n : Nat) : narrow (n : Int) = BitVec.ofNat 8 n := by
  simp [narrow, BitVec.ofInt_natCast]

/-- What `narrow` stores, as a number: the result modulo 256. -/
theorem narrow_toNat (n : Nat) : (narrow (n : Int)).toNat = n % 256 := by
  simp [narrow_eq_ofNat]

theorem narrow_toInt_mod (n : Int) : ((narrow n).toNat : Int) = n % 256 := by
  simp [narrow, BitVec.toNat_ofInt, Int.toNat_of_nonneg (Int.emod_nonneg n (by decide : (256 : Int) ≠ 0))]

/-! Fault entry. -/

/-- R137: RUN takes the cause, every other field stays. -/
theorem takeFault_eq (c : Cause) (s : State) : takeFault c s = { s with run := .faulted c } := rfl

@[simp] theorem takeFault_run (c : Cause) (s : State) : (takeFault c s).run = .faulted c := rfl

@[simp] theorem settle_ok (s t : State) : settle s (.ok t) = .next t := rfl

@[simp] theorem settle_error (s : State) (e : Raise) : settle s (.error e) = .next (takeFault e.cause s) := rfl

/-- A meaning built on `settle` always answers a next state: its commit or the fault it takes. -/
theorem settle_next {s t : State} {r : Except Raise State} (h : settle s r = .next t) :
    r = .ok t ∨ ∃ e, r = .error e ∧ t = takeFault e.cause s := by
  cases r with
  | ok u => simp only [settle_ok, Host.Outcome.next.injEq] at h; exact .inl (h ▸ rfl)
  | error e => simp only [settle_error, Host.Outcome.next.injEq] at h; exact .inr ⟨e, rfl, h.symm⟩

/-! Register index. -/

theorem regIdx_ok {b : Byte} (h : b.toNat < 8) : regIdx b = .ok ⟨b.toNat, h⟩ := by
  simp [regIdx, h]

theorem regIdx_error {b : Byte} (h : 7 < b.toNat) : regIdx b = .error .regIndex := by
  simp [regIdx, show ¬ b.toNat < 8 by omega]

/-- R12: the index when the byte is at most 7, AddressingError otherwise. -/
theorem regIdx_cases (b : Byte) :
    (∃ h : b.toNat < 8, regIdx b = .ok ⟨b.toNat, h⟩) ∨ (7 < b.toNat ∧ regIdx b = .error .regIndex) := by
  by_cases h : b.toNat < 8
  · exact .inl ⟨h, regIdx_ok h⟩
  · exact .inr ⟨by omega, regIdx_error (by omega)⟩

@[simp] theorem regByte_toNat (r : Fin 8) : (regByte r).toNat = r.val := by
  have := r.isLt
  simp only [regByte, BitVec.toNat_ofNat]
  omega

@[simp] theorem regIdx_regByte (r : Fin 8) : regIdx (regByte r) = .ok r := by
  rw [regIdx_ok (by simp only [regByte_toNat]; exact r.isLt)]
  simp

/-- Every byte that is a register index names a register. -/
theorem eq_regByte {b : Byte} (h : b.toNat < 8) : b = regByte ⟨b.toNat, h⟩ := by
  apply BitVec.eq_of_toNat_eq
  simp

/-! Sequential PC. -/

theorem seqPc_ok {n : Nat} {s : State} (h : s.pc.toNat + n ≤ 255) : seqPc n s = .ok (s.pc + BitVec.ofNat 8 n) := by
  have hb : narrow ((s.pc.toNat : Int) + n) = s.pc + BitVec.ofNat 8 n := by
    rw [← Int.natCast_add, narrow_eq_ofNat]
    apply BitVec.eq_of_toNat_eq
    simp
  simp [seqPc, show ¬ 255 < s.pc.toNat + n by omega, hb]

theorem seqPc_error {n : Nat} {s : State} (h : 255 < s.pc.toNat + n) : seqPc n s = .error .pcRange := by
  simp [seqPc, h]

/-- R15: the successor address inside 0 to 255, AddressingError otherwise. -/
theorem seqPc_cases (n : Nat) (s : State) :
    (s.pc.toNat + n ≤ 255 ∧ seqPc n s = .ok (s.pc + BitVec.ofNat 8 n)) ∨
      (255 < s.pc.toNat + n ∧ seqPc n s = .error .pcRange) := by
  by_cases h : s.pc.toNat + n ≤ 255
  · exact .inl ⟨h, seqPc_ok h⟩
  · exact .inr ⟨by omega, seqPc_error (by omega)⟩

/-! Memory access. -/

theorem memRead_ok {a : Nat} (s : State) (h : a ≤ 255) : memRead (a : Int) s = .ok (s.byte a) := by
  simp [memRead, h]

theorem memRead_error {a : Nat} (s : State) (h : 255 < a) : memRead (a : Int) s = .error .memAddress := by
  simp [memRead, h]

theorem memWrite_ok {a : Nat} (v : Byte) (s : State) (h : a ≤ 255) : memWrite (a : Int) v s = .ok (s.setByte a v) := by
  simp [memWrite, h]

theorem memWrite_error {a : Nat} (v : Byte) (s : State) (h : 255 < a) : memWrite (a : Int) v s = .error .memAddress := by
  simp [memWrite, h]

/-! The stack. -/

theorem checkPush_ok {s : State} (h : s.sp ≠ 0#8) : checkPush s = .ok () := by
  simp [checkPush, h]

theorem checkPush_error {s : State} (h : s.sp = 0#8) : checkPush s = .error .stackRange := by
  simp [checkPush, h]

theorem checkPop_ok {s : State} (h : s.sp ≠ 255#8) : checkPop s = .ok () := by
  simp [checkPop, h]

theorem checkPop_error {s : State} (h : s.sp = 255#8) : checkPop s = .error .stackRange := by
  simp [checkPop, h]

/-- Below a non-zero byte its predecessor, as numbers. -/
theorem toNat_sub_one {v : Byte} (h : v ≠ 0#8) : (v - 1#8).toNat = v.toNat - 1 ∧ 0 < v.toNat := by
  have : v.toNat ≠ 0 := fun e => h (BitVec.eq_of_toNat_eq e)
  have := v.isLt
  constructor
  · simp only [BitVec.toNat_sub, BitVec.toNat_ofNat]; omega
  · omega

/-- Above a byte other than 255 its successor, as numbers. -/
theorem toNat_add_one {v : Byte} (h : v ≠ 255#8) : (v + 1#8).toNat = v.toNat + 1 ∧ v.toNat < 255 := by
  have : v.toNat ≠ 255 := fun e => h (BitVec.eq_of_toNat_eq e)
  have := v.isLt
  constructor
  · simp only [BitVec.toNat_add, BitVec.toNat_ofNat]; omega
  · omega

/-- R37 at `sp ≠ 0`: SP one lower, the byte at the new SP, nothing else. -/
theorem pushByte_ok {s : State} (v : Byte) (h : s.sp ≠ 0#8) :
    pushByte v s = .ok ((s.setSp (s.sp - 1#8)).setByte (s.sp.toNat - 1) v) := by
  obtain ⟨h1, h2⟩ := toNat_sub_one h
  have hlt := s.sp.isLt
  have ha : pushAddr s = ((s.sp.toNat - 1 : Nat) : Int) := by simp only [pushAddr]; omega
  have hn : narrow (pushAddr s) = s.sp - 1#8 := by
    rw [ha, narrow_eq_ofNat, ← h1, BitVec.ofNat_toNat, BitVec.setWidth_eq]
  rw [pushByte, checkPush_ok h, except_bind_ok, hn, ha, memWrite_ok _ _ (by omega)]

theorem pushByte_error {s : State} (v : Byte) (h : s.sp = 0#8) : pushByte v s = .error .stackRange := by
  rw [pushByte, checkPush_error h]; rfl

/-- R38 at `sp ≠ 255`: the byte at the old SP, SP one higher, memory as it was. -/
theorem popByte_ok {s : State} (h : s.sp ≠ 255#8) :
    popByte s = .ok (s.byte s.sp.toNat, s.setSp (s.sp + 1#8)) := by
  obtain ⟨h1, h2⟩ := toNat_add_one h
  have hn : narrow ((s.sp.toNat : Int) + 1) = s.sp + 1#8 := by
    rw [show ((s.sp.toNat : Int) + 1) = ((s.sp.toNat + 1 : Nat) : Int) by omega, narrow_eq_ofNat, ← h1,
      BitVec.ofNat_toNat, BitVec.setWidth_eq]
  rw [popByte, checkPop_ok h, except_bind_ok, memRead_ok _ (by omega), except_bind_ok, hn]

theorem popByte_error {s : State} (h : s.sp = 255#8) : popByte s = .error .stackRange := by
  rw [popByte, checkPop_error h]; rfl

end Sys2Proof.Machine
end

