-- ==== Sys2Proof/Laws/Alu.lean ====
section
/-! SUPPORT. The ALU results, as operations on bytes. -/

namespace Sys2Proof.Machine

theorem aluAdd_eq (x y : Byte) : aluAdd x y = x + y := by
  apply BitVec.eq_of_toNat_eq
  rw [aluAdd, ← Int.natCast_add, narrow_toNat, BitVec.toNat_add]

theorem aluSub_eq (x y : Byte) : aluSub x y = x - y := by
  apply BitVec.eq_of_toNat_eq
  have h := narrow_toInt_mod ((x.toNat : Int) - y.toNat)
  have := x.isLt
  have := y.isLt
  rw [aluSub, BitVec.toNat_sub]
  omega

theorem aluMul_eq (x y : Byte) : aluMul x y = x * y := by
  apply BitVec.eq_of_toNat_eq
  rw [aluMul, ← Int.natCast_mul, narrow_toNat, BitVec.toNat_mul]

theorem aluDiv_toNat (x y : Byte) : (aluDiv x y).toNat = x.toNat / y.toNat := by
  rw [aluDiv, narrow_toNat, Nat.mod_eq_of_lt (Nat.lt_of_le_of_lt (Nat.div_le_self _ _) x.isLt)]

theorem aluMod_toNat (x y : Byte) : (aluMod x y).toNat = x.toNat % y.toNat := by
  rw [aluMod, narrow_toNat, Nat.mod_eq_of_lt (Nat.lt_of_le_of_lt (Nat.mod_le _ _) x.isLt)]

theorem aluInc_eq (x : Byte) : aluInc x = x + 1#8 := by
  apply BitVec.eq_of_toNat_eq
  rw [aluInc, show ((x.toNat : Int) + 1) = ((x.toNat + 1 : Nat) : Int) by omega, narrow_toNat, BitVec.toNat_add]
  rfl

theorem aluDec_eq (x : Byte) : aluDec x = x - 1#8 := by
  rw [show aluDec x = aluSub x 1#8 from rfl, aluSub_eq]

theorem aluNot_eq (x : Byte) : aluNot x = ~~~x := by
  apply BitVec.eq_of_toNat_eq
  have := x.isLt
  rw [aluNot, show ((255 : Int) - x.toNat) = ((255 - x.toNat : Nat) : Int) by omega, narrow_toNat, BitVec.toNat_not]
  omega

theorem aluShl_toNat (x y : Byte) : (aluShl x y).toNat = x.toNat * 2 ^ y.toNat % 256 := by
  rw [aluShl, show ((x.toNat : Int) * 2 ^ y.toNat) = ((x.toNat * 2 ^ y.toNat : Nat) : Int) by push_cast; rfl,
    narrow_toNat]

theorem aluShr_toNat (x y : Byte) : (aluShr x y).toNat = x.toNat / 2 ^ y.toNat := by
  rw [aluShr, narrow_toNat, Nat.mod_eq_of_lt (Nat.lt_of_le_of_lt (Nat.div_le_self _ _) x.isLt)]

end Sys2Proof.Machine
end

