-- ==== Sys2Proof/Laws/Meanings.lean ====
section
/-! SUPPORT. What each shared meaning can do: the state it commits, and the condition under which it does; otherwise it
raises. One lemma per shared meaning; the provers cite these instead of unfolding a meaning. -/

namespace Sys2Proof.Machine

theorem binaryOp_ok {f : Byte → Byte → Byte} {s : State} (ra rb : Fin 8) (hpc : s.pc.toNat + 3 ≤ 255) :
    binaryOp f (regByte ra) (regByte rb) s =
      .ok ((s.setReg ra (f (s.reg ra) (s.reg rb))).setPc (s.pc + 3#8)) := by
  simp only [binaryOp, regIdx_regByte, except_bind_ok, seqPc_ok hpc]

theorem unaryOp_ok {f : Byte → Byte} {s : State} (ra : Fin 8) (hpc : s.pc.toNat + 2 ≤ 255) :
    unaryOp f (regByte ra) s = .ok ((s.setReg ra (f (s.reg ra))).setPc (s.pc + 2#8)) := by
  simp only [unaryOp, regIdx_regByte, except_bind_ok, seqPc_ok hpc]

theorem divisionOp_ok {f : Byte → Byte → Byte} {s : State} (ra rb : Fin 8) (hb : s.reg rb ≠ 0#8)
    (hpc : s.pc.toNat + 3 ≤ 255) :
    divisionOp f (regByte ra) (regByte rb) s =
      .ok ((s.setReg ra (f (s.reg ra) (s.reg rb))).setPc (s.pc + 3#8)) := by
  simp only [divisionOp, regIdx_regByte, except_bind_ok, if_neg hb, seqPc_ok hpc]

theorem divisionOp_zero {f : Byte → Byte → Byte} {s : State} (ra rb : Fin 8) (hb : s.reg rb = 0#8) :
    divisionOp f (regByte ra) (regByte rb) s = .error .divisionByZero := by
  simp only [divisionOp, regIdx_regByte, except_bind_ok, if_pos hb]

theorem compareOp_ok {s : State} (ra rb : Fin 8) (hpc : s.pc.toNat + 3 ≤ 255) :
    compareOp (regByte ra) (regByte rb) s =
      .ok ((s.setFl (compareFlags (s.reg ra) (s.reg rb))).setPc (s.pc + 3#8)) := by
  simp only [compareOp, regIdx_regByte, except_bind_ok, seqPc_ok hpc]

theorem condJump_taken {c : Byte → Bool} {s : State} (ra : Fin 8) (h : c s.fl = true) :
    condJump c (regByte ra) s = .ok (s.setPc (s.reg ra)) := by
  simp only [condJump, regIdx_regByte, except_bind_ok, h, if_true]

theorem condJump_notTaken {c : Byte → Bool} {s : State} (ra : Fin 8) (h : c s.fl = false) (hpc : s.pc.toNat + 2 ≤ 255) :
    condJump c (regByte ra) s = .ok (s.setPc (s.pc + 2#8)) := by
  simp only [condJump, regIdx_regByte, except_bind_ok, h, seqPc_ok hpc]
  rfl

theorem callOp_ok {s : State} (ra : Fin 8) (hsp : s.sp ≠ 0#8) (hpc : s.pc.toNat + 2 ≤ 255) :
    callOp (regByte ra) s =
      .ok (((s.setSp (s.sp - 1#8)).setByte (s.sp.toNat - 1) (s.pc + 2#8)).setPc (s.reg ra)) := by
  simp only [callOp, regIdx_regByte, except_bind_ok, checkPush_ok hsp, seqPc_ok hpc, pushByte_ok _ hsp]

theorem retOp_ok {s : State} (hsp : s.sp ≠ 255#8) :
    retOp s = .ok ((s.setSp (s.sp + 1#8)).setPc (s.byte s.sp.toNat)) := by
  simp only [retOp, popByte_ok hsp, except_bind_ok]

theorem jumpOp_ok (s : State) (ra : Fin 8) : jumpOp (regByte ra) s = .ok (s.setPc (s.reg ra)) := by
  simp only [jumpOp, regIdx_regByte, except_bind_ok]

theorem nopOp_ok {s : State} (hpc : s.pc.toNat + 1 ≤ 255) : nopOp s = .ok (s.setPc (s.pc + 1#8)) := by
  simp only [nopOp, seqPc_ok hpc, except_bind_ok]

theorem ldiOp_ok {s : State} (ra : Fin 8) (imm : Byte) (hpc : s.pc.toNat + 3 ≤ 255) :
    ldiOp (regByte ra) imm s = .ok ((s.setReg ra imm).setPc (s.pc + 3#8)) := by
  simp only [ldiOp, regIdx_regByte, except_bind_ok, seqPc_ok hpc]

theorem pushOp_ok {s : State} (ra : Fin 8) (hsp : s.sp ≠ 0#8) (hpc : s.pc.toNat + 2 ≤ 255) :
    pushOp (regByte ra) s =
      .ok (((s.setSp (s.sp - 1#8)).setByte (s.sp.toNat - 1) (s.reg ra)).setPc (s.pc + 2#8)) := by
  simp only [pushOp, regIdx_regByte, except_bind_ok, checkPush_ok hsp, seqPc_ok hpc, pushByte_ok _ hsp]

theorem popOp_ok {s : State} (ra : Fin 8) (hsp : s.sp ≠ 255#8) (hpc : s.pc.toNat + 2 ≤ 255) :
    popOp (regByte ra) s =
      .ok (((s.setSp (s.sp + 1#8)).setReg ra (s.byte s.sp.toNat)).setPc (s.pc + 2#8)) := by
  simp only [popOp, regIdx_regByte, popByte_ok hsp, except_bind_ok, seqPc_ok hpc]

theorem prnOp_ok {s : State} (ra : Fin 8) (hpc : s.pc.toNat + 2 ≤ 255) :
    prnOp (regByte ra) s = .ok ((s.emit (s.reg ra)).setPc (s.pc + 2#8)) := by
  simp only [prnOp, regIdx_regByte, except_bind_ok, seqPc_ok hpc]

/-! The other direction: what a commit says about the instruction and the state. -/

theorem regIdx_inv {b : Byte} {r : Fin 8} (h : regIdx b = .ok r) : b = regByte r := by
  rcases regIdx_cases b with ⟨hb, e⟩ | ⟨_, e⟩
  · rw [e] at h
    cases h
    exact eq_regByte hb
  · rw [e] at h
    cases h

theorem seqPc_inv {n : Nat} {s : State} {v : Byte} (h : seqPc n s = .ok v) :
    s.pc.toNat + n ≤ 255 ∧ v = s.pc + BitVec.ofNat 8 n := by
  rcases seqPc_cases n s with ⟨hn, e⟩ | ⟨_, e⟩
  · rw [e] at h
    cases h
    exact ⟨hn, rfl⟩
  · rw [e] at h
    cases h

theorem bind_inv {α β : Type} {x : Except Raise α} {f : α → Except Raise β} {y : β} (h : (x >>= f) = .ok y) :
    ∃ a, x = .ok a ∧ f a = .ok y := by
  cases x with
  | ok a => exact ⟨a, rfl, h⟩
  | error e => cases h

theorem binaryOp_inv {f : Byte → Byte → Byte} {a b : Byte} {s t : State} (h : binaryOp f a b s = .ok t) :
    ∃ ra rb, a = regByte ra ∧ b = regByte rb ∧ s.pc.toNat + 3 ≤ 255 ∧
      t = (s.setReg ra (f (s.reg ra) (s.reg rb))).setPc (s.pc + 3#8) := by
  obtain ⟨ra, ha, h⟩ := bind_inv h
  obtain ⟨rb, hb, h⟩ := bind_inv h
  obtain ⟨npc, hp, h⟩ := bind_inv h
  obtain ⟨hpc, rfl⟩ := seqPc_inv hp
  cases h
  exact ⟨ra, rb, regIdx_inv ha, regIdx_inv hb, hpc, rfl⟩

theorem unaryOp_inv {f : Byte → Byte} {a : Byte} {s t : State} (h : unaryOp f a s = .ok t) :
    ∃ ra, a = regByte ra ∧ s.pc.toNat + 2 ≤ 255 ∧ t = (s.setReg ra (f (s.reg ra))).setPc (s.pc + 2#8) := by
  obtain ⟨ra, ha, h⟩ := bind_inv h
  obtain ⟨npc, hp, h⟩ := bind_inv h
  obtain ⟨hpc, rfl⟩ := seqPc_inv hp
  cases h
  exact ⟨ra, regIdx_inv ha, hpc, rfl⟩

theorem divisionOp_inv {f : Byte → Byte → Byte} {a b : Byte} {s t : State} (h : divisionOp f a b s = .ok t) :
    ∃ ra rb, a = regByte ra ∧ b = regByte rb ∧ s.reg rb ≠ 0#8 ∧ s.pc.toNat + 3 ≤ 255 ∧
      t = (s.setReg ra (f (s.reg ra) (s.reg rb))).setPc (s.pc + 3#8) := by
  obtain ⟨ra, ha, h⟩ := bind_inv h
  obtain ⟨rb, hb, h⟩ := bind_inv h
  by_cases hz : s.reg rb = 0#8
  · rw [if_pos hz] at h
    cases h
  · rw [if_neg hz] at h
    obtain ⟨npc, hp, h⟩ := bind_inv h
    obtain ⟨hpc, rfl⟩ := seqPc_inv hp
    cases h
    exact ⟨ra, rb, regIdx_inv ha, regIdx_inv hb, hz, hpc, rfl⟩

theorem compareOp_inv {a b : Byte} {s t : State} (h : compareOp a b s = .ok t) :
    ∃ ra rb, a = regByte ra ∧ b = regByte rb ∧ s.pc.toNat + 3 ≤ 255 ∧
      t = (s.setFl (compareFlags (s.reg ra) (s.reg rb))).setPc (s.pc + 3#8) := by
  obtain ⟨ra, ha, h⟩ := bind_inv h
  obtain ⟨rb, hb, h⟩ := bind_inv h
  obtain ⟨npc, hp, h⟩ := bind_inv h
  obtain ⟨hpc, rfl⟩ := seqPc_inv hp
  cases h
  exact ⟨ra, rb, regIdx_inv ha, regIdx_inv hb, hpc, rfl⟩

theorem condJump_inv {c : Byte → Bool} {a : Byte} {s t : State} (h : condJump c a s = .ok t) :
    ∃ ra, a = regByte ra ∧ ((c s.fl = true ∧ t = s.setPc (s.reg ra)) ∨
      (c s.fl = false ∧ s.pc.toNat + 2 ≤ 255 ∧ t = s.setPc (s.pc + 2#8))) := by
  obtain ⟨ra, ha, h⟩ := bind_inv h
  refine ⟨ra, regIdx_inv ha, ?_⟩
  cases hc : c s.fl with
  | true =>
    rw [if_pos hc] at h
    cases h
    exact .inl ⟨rfl, rfl⟩
  | false =>
    rw [if_neg (by simp [hc])] at h
    obtain ⟨npc, hp, h⟩ := bind_inv h
    obtain ⟨hpc, rfl⟩ := seqPc_inv hp
    cases h
    exact .inr ⟨rfl, hpc, rfl⟩

theorem checkPush_inv {s : State} {u : Unit} (h : checkPush s = .ok u) : s.sp ≠ 0#8 := by
  intro e
  rw [checkPush_error e] at h
  cases h

theorem popByte_inv {s : State} {p : Byte × State} (h : popByte s = .ok p) :
    s.sp ≠ 255#8 ∧ p = (s.byte s.sp.toNat, s.setSp (s.sp + 1#8)) := by
  have hsp : s.sp ≠ 255#8 := fun e => by
    rw [popByte_error e] at h
    cases h
  rw [popByte_ok hsp] at h
  cases h
  exact ⟨hsp, rfl⟩

theorem callOp_inv {a : Byte} {s t : State} (h : callOp a s = .ok t) :
    ∃ ra, a = regByte ra ∧ s.sp ≠ 0#8 ∧ s.pc.toNat + 2 ≤ 255 ∧
      t = ((s.setSp (s.sp - 1#8)).setByte (s.sp.toNat - 1) (s.pc + 2#8)).setPc (s.reg ra) := by
  obtain ⟨ra, ha, h'⟩ := bind_inv h
  obtain ⟨u, hc, h'⟩ := bind_inv h'
  obtain ⟨ret, hp, h'⟩ := bind_inv h'
  obtain ⟨hpc, rfl⟩ := seqPc_inv hp
  cases regIdx_inv ha
  rw [callOp_ok ra (checkPush_inv hc) hpc] at h
  cases h
  exact ⟨ra, rfl, checkPush_inv hc, hpc, rfl⟩

theorem retOp_inv {s t : State} (h : retOp s = .ok t) :
    s.sp ≠ 255#8 ∧ t = (s.setSp (s.sp + 1#8)).setPc (s.byte s.sp.toNat) := by
  obtain ⟨p, hp, h⟩ := bind_inv h
  obtain ⟨hsp, rfl⟩ := popByte_inv hp
  cases h
  exact ⟨hsp, rfl⟩

theorem jumpOp_inv {a : Byte} {s t : State} (h : jumpOp a s = .ok t) :
    ∃ ra, a = regByte ra ∧ t = s.setPc (s.reg ra) := by
  obtain ⟨ra, ha, h⟩ := bind_inv h
  cases h
  exact ⟨ra, regIdx_inv ha, rfl⟩

theorem nopOp_inv {s t : State} (h : nopOp s = .ok t) : s.pc.toNat + 1 ≤ 255 ∧ t = s.setPc (s.pc + 1#8) := by
  obtain ⟨npc, hp, h⟩ := bind_inv h
  obtain ⟨hpc, rfl⟩ := seqPc_inv hp
  cases h
  exact ⟨hpc, rfl⟩

theorem ldiOp_inv {a imm : Byte} {s t : State} (h : ldiOp a imm s = .ok t) :
    ∃ ra, a = regByte ra ∧ s.pc.toNat + 3 ≤ 255 ∧ t = (s.setReg ra imm).setPc (s.pc + 3#8) := by
  obtain ⟨ra, ha, h⟩ := bind_inv h
  obtain ⟨npc, hp, h⟩ := bind_inv h
  obtain ⟨hpc, rfl⟩ := seqPc_inv hp
  cases h
  exact ⟨ra, regIdx_inv ha, hpc, rfl⟩

theorem pushOp_inv {a : Byte} {s t : State} (h : pushOp a s = .ok t) :
    ∃ ra, a = regByte ra ∧ s.sp ≠ 0#8 ∧ s.pc.toNat + 2 ≤ 255 ∧
      t = ((s.setSp (s.sp - 1#8)).setByte (s.sp.toNat - 1) (s.reg ra)).setPc (s.pc + 2#8) := by
  obtain ⟨ra, ha, h'⟩ := bind_inv h
  obtain ⟨u, hc, h'⟩ := bind_inv h'
  obtain ⟨npc, hp, h'⟩ := bind_inv h'
  obtain ⟨hpc, rfl⟩ := seqPc_inv hp
  cases regIdx_inv ha
  rw [pushOp_ok ra (checkPush_inv hc) hpc] at h
  cases h
  exact ⟨ra, rfl, checkPush_inv hc, hpc, rfl⟩

theorem popOp_inv {a : Byte} {s t : State} (h : popOp a s = .ok t) :
    ∃ ra, a = regByte ra ∧ s.sp ≠ 255#8 ∧ s.pc.toNat + 2 ≤ 255 ∧
      t = ((s.setSp (s.sp + 1#8)).setReg ra (s.byte s.sp.toNat)).setPc (s.pc + 2#8) := by
  obtain ⟨ra, ha, h⟩ := bind_inv h
  obtain ⟨p, hp', h⟩ := bind_inv h
  obtain ⟨hsp, rfl⟩ := popByte_inv hp'
  obtain ⟨npc, hp, h⟩ := bind_inv h
  obtain ⟨hpc, rfl⟩ := seqPc_inv hp
  cases h
  exact ⟨ra, regIdx_inv ha, hsp, hpc, rfl⟩

theorem prnOp_inv {a : Byte} {s t : State} (h : prnOp a s = .ok t) :
    ∃ ra, a = regByte ra ∧ s.pc.toNat + 2 ≤ 255 ∧ t = (s.emit (s.reg ra)).setPc (s.pc + 2#8) := by
  obtain ⟨ra, ha, h⟩ := bind_inv h
  obtain ⟨npc, hp, h⟩ := bind_inv h
  obtain ⟨hpc, rfl⟩ := seqPc_inv hp
  cases h
  exact ⟨ra, regIdx_inv ha, hpc, rfl⟩

/-! What a fault says: the situation, and that no check before it failed (R136). -/

theorem binaryOp_raises {f : Byte → Byte → Byte} {a b : Byte} {s : State} {e : Raise} (h : binaryOp f a b s = .error e) :
    (e = .regIndex ∧ (7 < a.toNat ∨ 7 < b.toNat)) ∨
      (e = .pcRange ∧ a.toNat ≤ 7 ∧ b.toNat ≤ 7 ∧ 255 < s.pc.toNat + 3) := by
  rcases regIdx_cases a with ⟨ha, ea⟩ | ⟨ha, ea⟩
  · rcases regIdx_cases b with ⟨hb, eb⟩ | ⟨hb, eb⟩
    · rcases seqPc_cases 3 s with ⟨hp, ep⟩ | ⟨hp, ep⟩
      · simp only [binaryOp, ea, eb, ep, except_bind_ok, reduceCtorEq] at h
      · simp only [binaryOp, ea, eb, ep, except_bind_ok, except_bind_error, Except.error.injEq] at h
        exact .inr ⟨h.symm, by omega, by omega, hp⟩
    · simp only [binaryOp, ea, eb, except_bind_ok, except_bind_error, Except.error.injEq] at h
      exact .inl ⟨h.symm, .inr hb⟩
  · simp only [binaryOp, ea, except_bind_error, Except.error.injEq] at h
    exact .inl ⟨h.symm, .inl ha⟩

theorem compareOp_raises {a b : Byte} {s : State} {e : Raise} (h : compareOp a b s = .error e) :
    (e = .regIndex ∧ (7 < a.toNat ∨ 7 < b.toNat)) ∨
      (e = .pcRange ∧ a.toNat ≤ 7 ∧ b.toNat ≤ 7 ∧ 255 < s.pc.toNat + 3) := by
  rcases regIdx_cases a with ⟨ha, ea⟩ | ⟨ha, ea⟩
  · rcases regIdx_cases b with ⟨hb, eb⟩ | ⟨hb, eb⟩
    · rcases seqPc_cases 3 s with ⟨hp, ep⟩ | ⟨hp, ep⟩
      · simp only [compareOp, ea, eb, ep, except_bind_ok, reduceCtorEq] at h
      · simp only [compareOp, ea, eb, ep, except_bind_ok, except_bind_error, Except.error.injEq] at h
        exact .inr ⟨h.symm, by omega, by omega, hp⟩
    · simp only [compareOp, ea, eb, except_bind_ok, except_bind_error, Except.error.injEq] at h
      exact .inl ⟨h.symm, .inr hb⟩
  · simp only [compareOp, ea, except_bind_error, Except.error.injEq] at h
    exact .inl ⟨h.symm, .inl ha⟩

theorem divisionOp_raises {f : Byte → Byte → Byte} {a b : Byte} {s : State} {e : Raise}
    (h : divisionOp f a b s = .error e) :
    (e = .regIndex ∧ (7 < a.toNat ∨ 7 < b.toNat)) ∨
      ∃ ra rb, a = regByte ra ∧ b = regByte rb ∧ ((e = .divisionByZero ∧ s.reg rb = 0#8) ∨
        (e = .pcRange ∧ s.reg rb ≠ 0#8 ∧ 255 < s.pc.toNat + 3)) := by
  rcases regIdx_cases a with ⟨ha, ea⟩ | ⟨ha, ea⟩
  · rcases regIdx_cases b with ⟨hb, eb⟩ | ⟨hb, eb⟩
    · refine .inr ⟨_, _, eq_regByte ha, eq_regByte hb, ?_⟩
      by_cases hz : s.reg ⟨b.toNat, hb⟩ = 0#8
      · simp only [divisionOp, ea, eb, except_bind_ok, if_pos hz, Except.error.injEq] at h
        exact .inl ⟨h.symm, hz⟩
      · rcases seqPc_cases 3 s with ⟨hp, ep⟩ | ⟨hp, ep⟩
        · simp only [divisionOp, ea, eb, ep, except_bind_ok, if_neg hz, reduceCtorEq] at h
        · simp only [divisionOp, ea, eb, ep, except_bind_ok, except_bind_error, if_neg hz, Except.error.injEq] at h
          exact .inr ⟨h.symm, hz, hp⟩
    · simp only [divisionOp, ea, eb, except_bind_ok, except_bind_error, Except.error.injEq] at h
      exact .inl ⟨h.symm, .inr hb⟩
  · simp only [divisionOp, ea, except_bind_error, Except.error.injEq] at h
    exact .inl ⟨h.symm, .inl ha⟩

theorem unaryOp_raises {f : Byte → Byte} {a : Byte} {s : State} {e : Raise} (h : unaryOp f a s = .error e) :
    (e = .regIndex ∧ 7 < a.toNat) ∨ (e = .pcRange ∧ a.toNat ≤ 7 ∧ 255 < s.pc.toNat + 2) := by
  rcases regIdx_cases a with ⟨ha, ea⟩ | ⟨ha, ea⟩
  · rcases seqPc_cases 2 s with ⟨hp, ep⟩ | ⟨hp, ep⟩
    · simp only [unaryOp, ea, ep, except_bind_ok, reduceCtorEq] at h
    · simp only [unaryOp, ea, ep, except_bind_ok, except_bind_error, Except.error.injEq] at h
      exact .inr ⟨h.symm, by omega, hp⟩
  · simp only [unaryOp, ea, except_bind_error, Except.error.injEq] at h
    exact .inl ⟨h.symm, ha⟩

theorem prnOp_raises {a : Byte} {s : State} {e : Raise} (h : prnOp a s = .error e) :
    (e = .regIndex ∧ 7 < a.toNat) ∨ (e = .pcRange ∧ a.toNat ≤ 7 ∧ 255 < s.pc.toNat + 2) := by
  rcases regIdx_cases a with ⟨ha, ea⟩ | ⟨ha, ea⟩
  · rcases seqPc_cases 2 s with ⟨hp, ep⟩ | ⟨hp, ep⟩
    · simp only [prnOp, ea, ep, except_bind_ok, reduceCtorEq] at h
    · simp only [prnOp, ea, ep, except_bind_ok, except_bind_error, Except.error.injEq] at h
      exact .inr ⟨h.symm, by omega, hp⟩
  · simp only [prnOp, ea, except_bind_error, Except.error.injEq] at h
    exact .inl ⟨h.symm, ha⟩

theorem ldiOp_raises {a imm : Byte} {s : State} {e : Raise} (h : ldiOp a imm s = .error e) :
    (e = .regIndex ∧ 7 < a.toNat) ∨ (e = .pcRange ∧ a.toNat ≤ 7 ∧ 255 < s.pc.toNat + 3) := by
  rcases regIdx_cases a with ⟨ha, ea⟩ | ⟨ha, ea⟩
  · rcases seqPc_cases 3 s with ⟨hp, ep⟩ | ⟨hp, ep⟩
    · simp only [ldiOp, ea, ep, except_bind_ok, reduceCtorEq] at h
    · simp only [ldiOp, ea, ep, except_bind_ok, except_bind_error, Except.error.injEq] at h
      exact .inr ⟨h.symm, by omega, hp⟩
  · simp only [ldiOp, ea, except_bind_error, Except.error.injEq] at h
    exact .inl ⟨h.symm, ha⟩

theorem callOp_raises {a : Byte} {s : State} {e : Raise} (h : callOp a s = .error e) :
    (e = .regIndex ∧ 7 < a.toNat) ∨ (e = .stackRange ∧ a.toNat ≤ 7 ∧ s.sp = 0#8) ∨
      (e = .pcRange ∧ a.toNat ≤ 7 ∧ s.sp ≠ 0#8 ∧ 255 < s.pc.toNat + 2) := by
  rcases regIdx_cases a with ⟨ha, ea⟩ | ⟨ha, ea⟩
  · by_cases hs : s.sp = 0#8
    · simp only [callOp, ea, checkPush_error hs, except_bind_ok, except_bind_error, Except.error.injEq] at h
      exact .inr (.inl ⟨h.symm, by omega, hs⟩)
    · rcases seqPc_cases 2 s with ⟨hp, ep⟩ | ⟨hp, ep⟩
      · simp only [callOp, ea, checkPush_ok hs, pushByte_ok _ hs, ep, except_bind_ok, reduceCtorEq] at h
      · simp only [callOp, ea, checkPush_ok hs, ep, except_bind_ok, except_bind_error, Except.error.injEq] at h
        exact .inr (.inr ⟨h.symm, by omega, hs, hp⟩)
  · simp only [callOp, ea, except_bind_error, Except.error.injEq] at h
    exact .inl ⟨h.symm, ha⟩

theorem pushOp_raises {a : Byte} {s : State} {e : Raise} (h : pushOp a s = .error e) :
    (e = .regIndex ∧ 7 < a.toNat) ∨ (e = .stackRange ∧ a.toNat ≤ 7 ∧ s.sp = 0#8) ∨
      (e = .pcRange ∧ a.toNat ≤ 7 ∧ s.sp ≠ 0#8 ∧ 255 < s.pc.toNat + 2) := by
  rcases regIdx_cases a with ⟨ha, ea⟩ | ⟨ha, ea⟩
  · by_cases hs : s.sp = 0#8
    · simp only [pushOp, ea, checkPush_error hs, except_bind_ok, except_bind_error, Except.error.injEq] at h
      exact .inr (.inl ⟨h.symm, by omega, hs⟩)
    · rcases seqPc_cases 2 s with ⟨hp, ep⟩ | ⟨hp, ep⟩
      · simp only [pushOp, ea, checkPush_ok hs, pushByte_ok _ hs, ep, except_bind_ok, reduceCtorEq] at h
      · simp only [pushOp, ea, checkPush_ok hs, ep, except_bind_ok, except_bind_error, Except.error.injEq] at h
        exact .inr (.inr ⟨h.symm, by omega, hs, hp⟩)
  · simp only [pushOp, ea, except_bind_error, Except.error.injEq] at h
    exact .inl ⟨h.symm, ha⟩

theorem popOp_raises {a : Byte} {s : State} {e : Raise} (h : popOp a s = .error e) :
    (e = .regIndex ∧ 7 < a.toNat) ∨ (e = .stackRange ∧ a.toNat ≤ 7 ∧ s.sp = 255#8) ∨
      (e = .pcRange ∧ a.toNat ≤ 7 ∧ s.sp ≠ 255#8 ∧ 255 < s.pc.toNat + 2) := by
  rcases regIdx_cases a with ⟨ha, ea⟩ | ⟨ha, ea⟩
  · by_cases hs : s.sp = 255#8
    · simp only [popOp, ea, popByte_error hs, except_bind_ok, except_bind_error, Except.error.injEq] at h
      exact .inr (.inl ⟨h.symm, by omega, hs⟩)
    · rcases seqPc_cases 2 s with ⟨hp, ep⟩ | ⟨hp, ep⟩
      · simp only [popOp, ea, popByte_ok hs, ep, except_bind_ok, reduceCtorEq] at h
      · simp only [popOp, ea, popByte_ok hs, ep, except_bind_ok, except_bind_error, Except.error.injEq] at h
        exact .inr (.inr ⟨h.symm, by omega, hs, hp⟩)
  · simp only [popOp, ea, except_bind_error, Except.error.injEq] at h
    exact .inl ⟨h.symm, ha⟩

theorem condJump_raises {c : Byte → Bool} {a : Byte} {s : State} {e : Raise} (h : condJump c a s = .error e) :
    (e = .regIndex ∧ 7 < a.toNat) ∨
      (e = .pcRange ∧ a.toNat ≤ 7 ∧ c s.fl = false ∧ 255 < s.pc.toNat + 2) := by
  rcases regIdx_cases a with ⟨ha, ea⟩ | ⟨ha, ea⟩
  · cases hc : c s.fl with
    | true => simp only [condJump, ea, hc, except_bind_ok, if_true, reduceCtorEq] at h
    | false =>
      rcases seqPc_cases 2 s with ⟨hp, ep⟩ | ⟨hp, ep⟩
      · simp only [condJump, ea, ep, hc, except_bind_ok, Bool.false_eq_true, if_false, reduceCtorEq] at h
      · simp only [condJump, ea, ep, hc, except_bind_ok, except_bind_error, Bool.false_eq_true, if_false,
          Except.error.injEq] at h
        exact .inr ⟨h.symm, by omega, rfl, hp⟩
  · simp only [condJump, ea, except_bind_error, Except.error.injEq] at h
    exact .inl ⟨h.symm, ha⟩

theorem jumpOp_raises {a : Byte} {s : State} {e : Raise} (h : jumpOp a s = .error e) :
    e = .regIndex ∧ 7 < a.toNat := by
  rcases regIdx_cases a with ⟨ha, ea⟩ | ⟨ha, ea⟩
  · simp only [jumpOp, ea, except_bind_ok, reduceCtorEq] at h
  · simp only [jumpOp, ea, except_bind_error, Except.error.injEq] at h
    exact ⟨h.symm, ha⟩

theorem retOp_raises {s : State} {e : Raise} (h : retOp s = .error e) : e = .stackRange ∧ s.sp = 255#8 := by
  by_cases hs : s.sp = 255#8
  · simp only [retOp, popByte_error hs, except_bind_error, Except.error.injEq] at h
    exact ⟨h.symm, hs⟩
  · rw [retOp_ok hs] at h
    cases h

theorem nopOp_raises {s : State} {e : Raise} (h : nopOp s = .error e) : e = .pcRange ∧ 255 < s.pc.toNat + 1 := by
  rcases seqPc_cases 1 s with ⟨hp, ep⟩ | ⟨hp, ep⟩
  · simp only [nopOp, ep, except_bind_ok, reduceCtorEq] at h
  · simp only [nopOp, ep, except_bind_error, Except.error.injEq] at h
    exact ⟨h.symm, hp⟩

end Sys2Proof.Machine
end

