-- ==== Sys2Proof/Laws/PerInstr.lean ====
section
/-! SUPPORT. Laws of the encoding, one lemma per instruction. -/

/-- R50, R51: the length in bytes is the operand-count field of the word plus 1. -/
def Sys2Proof.Laws.EncodeLength.Statement (i : Sys2Proof.Instr) : Prop :=
  (Sys2Proof.encode i).length = (Sys2Proof.wordFields i.word).nops + 1

/-- R52, R59: the bytes of an instruction decode to it, whatever bytes follow. -/
def Sys2Proof.Laws.DecodeEncode.Statement (i : Sys2Proof.Instr) : Prop :=
  ∀ rest, Sys2Proof.decode (Sys2Proof.encode i ++ rest) = .ok (i, rest)

theorem Sys2Proof.Laws.EncodeLength.add (a b : Sys2Proof.Byte) : Sys2Proof.Laws.EncodeLength.Statement (.add a b) := by
  simp [Sys2Proof.Laws.EncodeLength.Statement, Sys2Proof.encode, Sys2Proof.Instr.operands, Sys2Proof.Instr.word, Sys2Proof.wordFields]

theorem Sys2Proof.Laws.EncodeLength.sub (a b : Sys2Proof.Byte) : Sys2Proof.Laws.EncodeLength.Statement (.sub a b) := by
  simp [Sys2Proof.Laws.EncodeLength.Statement, Sys2Proof.encode, Sys2Proof.Instr.operands, Sys2Proof.Instr.word, Sys2Proof.wordFields]

theorem Sys2Proof.Laws.EncodeLength.mul (a b : Sys2Proof.Byte) : Sys2Proof.Laws.EncodeLength.Statement (.mul a b) := by
  simp [Sys2Proof.Laws.EncodeLength.Statement, Sys2Proof.encode, Sys2Proof.Instr.operands, Sys2Proof.Instr.word, Sys2Proof.wordFields]

theorem Sys2Proof.Laws.EncodeLength.div (a b : Sys2Proof.Byte) : Sys2Proof.Laws.EncodeLength.Statement (.div a b) := by
  simp [Sys2Proof.Laws.EncodeLength.Statement, Sys2Proof.encode, Sys2Proof.Instr.operands, Sys2Proof.Instr.word, Sys2Proof.wordFields]

theorem Sys2Proof.Laws.EncodeLength.mod (a b : Sys2Proof.Byte) : Sys2Proof.Laws.EncodeLength.Statement (.mod a b) := by
  simp [Sys2Proof.Laws.EncodeLength.Statement, Sys2Proof.encode, Sys2Proof.Instr.operands, Sys2Proof.Instr.word, Sys2Proof.wordFields]

theorem Sys2Proof.Laws.EncodeLength.inc (a : Sys2Proof.Byte) : Sys2Proof.Laws.EncodeLength.Statement (.inc a) := by
  simp [Sys2Proof.Laws.EncodeLength.Statement, Sys2Proof.encode, Sys2Proof.Instr.operands, Sys2Proof.Instr.word, Sys2Proof.wordFields]

theorem Sys2Proof.Laws.EncodeLength.dec (a : Sys2Proof.Byte) : Sys2Proof.Laws.EncodeLength.Statement (.dec a) := by
  simp [Sys2Proof.Laws.EncodeLength.Statement, Sys2Proof.encode, Sys2Proof.Instr.operands, Sys2Proof.Instr.word, Sys2Proof.wordFields]

theorem Sys2Proof.Laws.EncodeLength.cmp (a b : Sys2Proof.Byte) : Sys2Proof.Laws.EncodeLength.Statement (.cmp a b) := by
  simp [Sys2Proof.Laws.EncodeLength.Statement, Sys2Proof.encode, Sys2Proof.Instr.operands, Sys2Proof.Instr.word, Sys2Proof.wordFields]

theorem Sys2Proof.Laws.EncodeLength.and (a b : Sys2Proof.Byte) : Sys2Proof.Laws.EncodeLength.Statement (.and a b) := by
  simp [Sys2Proof.Laws.EncodeLength.Statement, Sys2Proof.encode, Sys2Proof.Instr.operands, Sys2Proof.Instr.word, Sys2Proof.wordFields]

theorem Sys2Proof.Laws.EncodeLength.not (a : Sys2Proof.Byte) : Sys2Proof.Laws.EncodeLength.Statement (.not a) := by
  simp [Sys2Proof.Laws.EncodeLength.Statement, Sys2Proof.encode, Sys2Proof.Instr.operands, Sys2Proof.Instr.word, Sys2Proof.wordFields]

theorem Sys2Proof.Laws.EncodeLength.or (a b : Sys2Proof.Byte) : Sys2Proof.Laws.EncodeLength.Statement (.or a b) := by
  simp [Sys2Proof.Laws.EncodeLength.Statement, Sys2Proof.encode, Sys2Proof.Instr.operands, Sys2Proof.Instr.word, Sys2Proof.wordFields]

theorem Sys2Proof.Laws.EncodeLength.xor (a b : Sys2Proof.Byte) : Sys2Proof.Laws.EncodeLength.Statement (.xor a b) := by
  simp [Sys2Proof.Laws.EncodeLength.Statement, Sys2Proof.encode, Sys2Proof.Instr.operands, Sys2Proof.Instr.word, Sys2Proof.wordFields]

theorem Sys2Proof.Laws.EncodeLength.shl (a b : Sys2Proof.Byte) : Sys2Proof.Laws.EncodeLength.Statement (.shl a b) := by
  simp [Sys2Proof.Laws.EncodeLength.Statement, Sys2Proof.encode, Sys2Proof.Instr.operands, Sys2Proof.Instr.word, Sys2Proof.wordFields]

theorem Sys2Proof.Laws.EncodeLength.shr (a b : Sys2Proof.Byte) : Sys2Proof.Laws.EncodeLength.Statement (.shr a b) := by
  simp [Sys2Proof.Laws.EncodeLength.Statement, Sys2Proof.encode, Sys2Proof.Instr.operands, Sys2Proof.Instr.word, Sys2Proof.wordFields]

theorem Sys2Proof.Laws.EncodeLength.call (a : Sys2Proof.Byte) : Sys2Proof.Laws.EncodeLength.Statement (.call a) := by
  simp [Sys2Proof.Laws.EncodeLength.Statement, Sys2Proof.encode, Sys2Proof.Instr.operands, Sys2Proof.Instr.word, Sys2Proof.wordFields]

theorem Sys2Proof.Laws.EncodeLength.ret : Sys2Proof.Laws.EncodeLength.Statement (.ret) := by
  simp [Sys2Proof.Laws.EncodeLength.Statement, Sys2Proof.encode, Sys2Proof.Instr.operands, Sys2Proof.Instr.word, Sys2Proof.wordFields]

theorem Sys2Proof.Laws.EncodeLength.jmp (a : Sys2Proof.Byte) : Sys2Proof.Laws.EncodeLength.Statement (.jmp a) := by
  simp [Sys2Proof.Laws.EncodeLength.Statement, Sys2Proof.encode, Sys2Proof.Instr.operands, Sys2Proof.Instr.word, Sys2Proof.wordFields]

theorem Sys2Proof.Laws.EncodeLength.jeq (a : Sys2Proof.Byte) : Sys2Proof.Laws.EncodeLength.Statement (.jeq a) := by
  simp [Sys2Proof.Laws.EncodeLength.Statement, Sys2Proof.encode, Sys2Proof.Instr.operands, Sys2Proof.Instr.word, Sys2Proof.wordFields]

theorem Sys2Proof.Laws.EncodeLength.jne (a : Sys2Proof.Byte) : Sys2Proof.Laws.EncodeLength.Statement (.jne a) := by
  simp [Sys2Proof.Laws.EncodeLength.Statement, Sys2Proof.encode, Sys2Proof.Instr.operands, Sys2Proof.Instr.word, Sys2Proof.wordFields]

theorem Sys2Proof.Laws.EncodeLength.jgt (a : Sys2Proof.Byte) : Sys2Proof.Laws.EncodeLength.Statement (.jgt a) := by
  simp [Sys2Proof.Laws.EncodeLength.Statement, Sys2Proof.encode, Sys2Proof.Instr.operands, Sys2Proof.Instr.word, Sys2Proof.wordFields]

theorem Sys2Proof.Laws.EncodeLength.jlt (a : Sys2Proof.Byte) : Sys2Proof.Laws.EncodeLength.Statement (.jlt a) := by
  simp [Sys2Proof.Laws.EncodeLength.Statement, Sys2Proof.encode, Sys2Proof.Instr.operands, Sys2Proof.Instr.word, Sys2Proof.wordFields]

theorem Sys2Proof.Laws.EncodeLength.jle (a : Sys2Proof.Byte) : Sys2Proof.Laws.EncodeLength.Statement (.jle a) := by
  simp [Sys2Proof.Laws.EncodeLength.Statement, Sys2Proof.encode, Sys2Proof.Instr.operands, Sys2Proof.Instr.word, Sys2Proof.wordFields]

theorem Sys2Proof.Laws.EncodeLength.jge (a : Sys2Proof.Byte) : Sys2Proof.Laws.EncodeLength.Statement (.jge a) := by
  simp [Sys2Proof.Laws.EncodeLength.Statement, Sys2Proof.encode, Sys2Proof.Instr.operands, Sys2Proof.Instr.word, Sys2Proof.wordFields]

theorem Sys2Proof.Laws.EncodeLength.nop : Sys2Proof.Laws.EncodeLength.Statement (.nop) := by
  simp [Sys2Proof.Laws.EncodeLength.Statement, Sys2Proof.encode, Sys2Proof.Instr.operands, Sys2Proof.Instr.word, Sys2Proof.wordFields]

theorem Sys2Proof.Laws.EncodeLength.hlt : Sys2Proof.Laws.EncodeLength.Statement (.hlt) := by
  simp [Sys2Proof.Laws.EncodeLength.Statement, Sys2Proof.encode, Sys2Proof.Instr.operands, Sys2Proof.Instr.word, Sys2Proof.wordFields]

theorem Sys2Proof.Laws.EncodeLength.ldi (a b : Sys2Proof.Byte) : Sys2Proof.Laws.EncodeLength.Statement (.ldi a b) := by
  simp [Sys2Proof.Laws.EncodeLength.Statement, Sys2Proof.encode, Sys2Proof.Instr.operands, Sys2Proof.Instr.word, Sys2Proof.wordFields]

theorem Sys2Proof.Laws.EncodeLength.push (a : Sys2Proof.Byte) : Sys2Proof.Laws.EncodeLength.Statement (.push a) := by
  simp [Sys2Proof.Laws.EncodeLength.Statement, Sys2Proof.encode, Sys2Proof.Instr.operands, Sys2Proof.Instr.word, Sys2Proof.wordFields]

theorem Sys2Proof.Laws.EncodeLength.pop (a : Sys2Proof.Byte) : Sys2Proof.Laws.EncodeLength.Statement (.pop a) := by
  simp [Sys2Proof.Laws.EncodeLength.Statement, Sys2Proof.encode, Sys2Proof.Instr.operands, Sys2Proof.Instr.word, Sys2Proof.wordFields]

theorem Sys2Proof.Laws.EncodeLength.prn (a : Sys2Proof.Byte) : Sys2Proof.Laws.EncodeLength.Statement (.prn a) := by
  simp [Sys2Proof.Laws.EncodeLength.Statement, Sys2Proof.encode, Sys2Proof.Instr.operands, Sys2Proof.Instr.word, Sys2Proof.wordFields]

theorem Sys2Proof.Laws.DecodeEncode.add (a b : Sys2Proof.Byte) : Sys2Proof.Laws.DecodeEncode.Statement (.add a b) := fun _ => rfl

theorem Sys2Proof.Laws.DecodeEncode.sub (a b : Sys2Proof.Byte) : Sys2Proof.Laws.DecodeEncode.Statement (.sub a b) := fun _ => rfl

theorem Sys2Proof.Laws.DecodeEncode.mul (a b : Sys2Proof.Byte) : Sys2Proof.Laws.DecodeEncode.Statement (.mul a b) := fun _ => rfl

theorem Sys2Proof.Laws.DecodeEncode.div (a b : Sys2Proof.Byte) : Sys2Proof.Laws.DecodeEncode.Statement (.div a b) := fun _ => rfl

theorem Sys2Proof.Laws.DecodeEncode.mod (a b : Sys2Proof.Byte) : Sys2Proof.Laws.DecodeEncode.Statement (.mod a b) := fun _ => rfl

theorem Sys2Proof.Laws.DecodeEncode.inc (a : Sys2Proof.Byte) : Sys2Proof.Laws.DecodeEncode.Statement (.inc a) := fun _ => rfl

theorem Sys2Proof.Laws.DecodeEncode.dec (a : Sys2Proof.Byte) : Sys2Proof.Laws.DecodeEncode.Statement (.dec a) := fun _ => rfl

theorem Sys2Proof.Laws.DecodeEncode.cmp (a b : Sys2Proof.Byte) : Sys2Proof.Laws.DecodeEncode.Statement (.cmp a b) := fun _ => rfl

theorem Sys2Proof.Laws.DecodeEncode.and (a b : Sys2Proof.Byte) : Sys2Proof.Laws.DecodeEncode.Statement (.and a b) := fun _ => rfl

theorem Sys2Proof.Laws.DecodeEncode.not (a : Sys2Proof.Byte) : Sys2Proof.Laws.DecodeEncode.Statement (.not a) := fun _ => rfl

theorem Sys2Proof.Laws.DecodeEncode.or (a b : Sys2Proof.Byte) : Sys2Proof.Laws.DecodeEncode.Statement (.or a b) := fun _ => rfl

theorem Sys2Proof.Laws.DecodeEncode.xor (a b : Sys2Proof.Byte) : Sys2Proof.Laws.DecodeEncode.Statement (.xor a b) := fun _ => rfl

theorem Sys2Proof.Laws.DecodeEncode.shl (a b : Sys2Proof.Byte) : Sys2Proof.Laws.DecodeEncode.Statement (.shl a b) := fun _ => rfl

theorem Sys2Proof.Laws.DecodeEncode.shr (a b : Sys2Proof.Byte) : Sys2Proof.Laws.DecodeEncode.Statement (.shr a b) := fun _ => rfl

theorem Sys2Proof.Laws.DecodeEncode.call (a : Sys2Proof.Byte) : Sys2Proof.Laws.DecodeEncode.Statement (.call a) := fun _ => rfl

theorem Sys2Proof.Laws.DecodeEncode.ret : Sys2Proof.Laws.DecodeEncode.Statement (.ret) := fun _ => rfl

theorem Sys2Proof.Laws.DecodeEncode.jmp (a : Sys2Proof.Byte) : Sys2Proof.Laws.DecodeEncode.Statement (.jmp a) := fun _ => rfl

theorem Sys2Proof.Laws.DecodeEncode.jeq (a : Sys2Proof.Byte) : Sys2Proof.Laws.DecodeEncode.Statement (.jeq a) := fun _ => rfl

theorem Sys2Proof.Laws.DecodeEncode.jne (a : Sys2Proof.Byte) : Sys2Proof.Laws.DecodeEncode.Statement (.jne a) := fun _ => rfl

theorem Sys2Proof.Laws.DecodeEncode.jgt (a : Sys2Proof.Byte) : Sys2Proof.Laws.DecodeEncode.Statement (.jgt a) := fun _ => rfl

theorem Sys2Proof.Laws.DecodeEncode.jlt (a : Sys2Proof.Byte) : Sys2Proof.Laws.DecodeEncode.Statement (.jlt a) := fun _ => rfl

theorem Sys2Proof.Laws.DecodeEncode.jle (a : Sys2Proof.Byte) : Sys2Proof.Laws.DecodeEncode.Statement (.jle a) := fun _ => rfl

theorem Sys2Proof.Laws.DecodeEncode.jge (a : Sys2Proof.Byte) : Sys2Proof.Laws.DecodeEncode.Statement (.jge a) := fun _ => rfl

theorem Sys2Proof.Laws.DecodeEncode.nop : Sys2Proof.Laws.DecodeEncode.Statement (.nop) := fun _ => rfl

theorem Sys2Proof.Laws.DecodeEncode.hlt : Sys2Proof.Laws.DecodeEncode.Statement (.hlt) := fun _ => rfl

theorem Sys2Proof.Laws.DecodeEncode.ldi (a b : Sys2Proof.Byte) : Sys2Proof.Laws.DecodeEncode.Statement (.ldi a b) := fun _ => rfl

theorem Sys2Proof.Laws.DecodeEncode.push (a : Sys2Proof.Byte) : Sys2Proof.Laws.DecodeEncode.Statement (.push a) := fun _ => rfl

theorem Sys2Proof.Laws.DecodeEncode.pop (a : Sys2Proof.Byte) : Sys2Proof.Laws.DecodeEncode.Statement (.pop a) := fun _ => rfl

theorem Sys2Proof.Laws.DecodeEncode.prn (a : Sys2Proof.Byte) : Sys2Proof.Laws.DecodeEncode.Statement (.prn a) := fun _ => rfl
end

