-- ==== Sys2Proof/Laws/Step.lean ====
section
/-! SUPPORT. What fetch and step can do: when a step exists, which instruction it runs, and that every meaning answers a
next state. -/

namespace Sys2Proof.Machine

/-- Every instruction answers a next state: its own effect or the fault it takes. -/
theorem exec_next (i : Instr) (s : State) : ∃ t, exec i s = .next t := by
  have h : ∀ r : Except Raise State, ∃ t, settle s r = .next t := by
    rintro (e | t)
    · exact ⟨_, rfl⟩
    · exact ⟨_, rfl⟩
  cases i <;> first | exact h _ | exact ⟨_, rfl⟩

theorem step_running {s : State} (h : s.run = .running) :
    step s = match fetchInstr s with
      | .ok i => exec i s
      | .error e => .next (takeFault e.cause s) := by
  cases s; cases h; rfl

/-- R115: a step runs the fetched instruction. -/
theorem step_fetched {s : State} {i : Instr} (h : s.run = .running) (hf : fetchInstr s = .ok i) :
    step s = exec i s := by
  rw [step_running h, hf]

theorem step_fetchFault {s : State} {e : Raise} (h : s.run = .running) (hf : fetchInstr s = .error e) :
    step s = .next (takeFault e.cause s) := by
  rw [step_running h, hf]

/-- A step that exists: the machine was running, and either an instruction was fetched and run or the fetch raised. -/
theorem step_inv {s t : State} (h : step s = .next t) :
    s.run = .running ∧ ((∃ i, fetchInstr s = .ok i ∧ exec i s = .next t) ∨
      ∃ e, fetchInstr s = .error e ∧ t = takeFault e.cause s) := by
  cases hr : s.run with
  | halted => simp [step, hr] at h
  | faulted c => simp [step, hr] at h
  | running =>
    refine ⟨rfl, ?_⟩
    cases hf : fetchInstr s with
    | ok i => exact .inl ⟨i, rfl, step_fetched hr hf ▸ h⟩
    | error e =>
      rw [step_fetchFault hr hf] at h
      cases h
      exact .inr ⟨e, rfl, rfl⟩

/-- A running machine always has a step. -/
theorem step_of_running {s : State} (h : s.run = .running) : ∃ t, step s = .next t := by
  cases hf : fetchInstr s with
  | ok i =>
    obtain ⟨t, ht⟩ := exec_next i s
    exact ⟨t, step_fetched h hf ▸ ht⟩
  | error e => exact ⟨_, step_fetchFault h hf⟩

/-- The word fetch never faults (R132): PC is an address. -/
theorem memRead_pc (s : State) : memRead (s.pc.toNat : Int) s = .ok (s.byte s.pc.toNat) :=
  memRead_ok s (by have := s.pc.isLt; omega)

theorem memRead_pc_add {s : State} {n : Nat} (h : s.pc.toNat + n ≤ 255) :
    memRead ((s.pc.toNat : Int) + n) s = .ok (s.byte (s.pc.toNat + n)) := by
  have := memRead_ok s h
  push_cast at this
  exact this

theorem memRead_pc_add_error {s : State} {n : Nat} (h : 255 < s.pc.toNat + n) :
    memRead ((s.pc.toNat : Int) + n) s = .error .memAddress := by
  have := memRead_error s h
  push_cast at this
  exact this

/-- Fetch, by the shape of the word at `pc`. -/
theorem fetchInstr_eq (s : State) :
    fetchInstr s = match decodeWord (s.byte s.pc.toNat) with
      | none => .error .unsupportedOperation
      | some (.bare i) => .ok i
      | some (.one mk) =>
        if s.pc.toNat + 1 ≤ 255 then .ok (mk (s.byte (s.pc.toNat + 1))) else .error .memAddress
      | some (.two mk) =>
        if s.pc.toNat + 2 ≤ 255 then .ok (mk (s.byte (s.pc.toNat + 1)) (s.byte (s.pc.toNat + 2)))
        else .error .memAddress := by
  rw [fetchInstr, memRead_pc, except_bind_ok]
  rcases hd : decodeWord (s.byte s.pc.toNat) with _ | sh
  · rfl
  · cases sh with
    | bare i => rfl
    | one mk =>
      by_cases h1 : s.pc.toNat + 1 ≤ 255
      · have e1 := memRead_pc_add h1
        simp only [Nat.cast_one] at e1
        simp only [e1, except_bind_ok, if_pos h1]
      · have e1 := memRead_pc_add_error (s := s) (n := 1) (by omega)
        simp only [Nat.cast_one] at e1
        simp only [e1, except_bind_error, if_neg h1]
    | two mk =>
      by_cases h1 : s.pc.toNat + 1 ≤ 255
      · have e1 := memRead_pc_add h1
        simp only [Nat.cast_one] at e1
        by_cases h2 : s.pc.toNat + 2 ≤ 255
        · have e2 := memRead_pc_add h2
          simp only [Nat.cast_ofNat] at e2
          simp only [e1, e2, except_bind_ok, if_pos h2]
        · have e2 := memRead_pc_add_error (s := s) (n := 2) (by omega)
          simp only [Nat.cast_ofNat] at e2
          simp only [e1, e2, except_bind_ok, except_bind_error, if_neg h2]
      · have e1 := memRead_pc_add_error (s := s) (n := 1) (by omega)
        simp only [Nat.cast_one] at e1
        simp only [e1, except_bind_error, if_neg (show ¬ s.pc.toNat + 2 ≤ 255 by omega)]

end Sys2Proof.Machine
end

