-- ==== Sys2Proof/Laws/Signals.lean ====
section
/-! SUPPORT. The ports of the hardware view, and what its table of fault conditions answers, case by case. -/

namespace Sys2Proof.Machine

@[simp] theorem fin_ofNat_regByte (r : Fin 8) : Fin.ofNat 8 (regByte r).toNat = r := by
  apply Fin.ext
  simp [Fin.ofNat]

/-- On a byte that names a register the port is that register. -/
@[simp] theorem State.port_regByte (s : State) (r : Fin 8) : s.port (regByte r) = s.reg r := by
  simp only [State.port, fin_ofNat_regByte]

theorem busA_read {i : Instr} (h : (signals i).readA = true) (idle : Byte) (s : State) :
    busA idle i s = s.port (operandA i) := if_pos h

theorem busA_idle {i : Instr} (h : (signals i).readA = false) (idle : Byte) (s : State) : busA idle i s = idle :=
  if_neg (by rw [h]; exact Bool.false_ne_true)

theorem busB_read {i : Instr} (h : (signals i).readB = true) (idle : Byte) (s : State) :
    busB idle i s = s.port (operandB i) := if_pos h

theorem busB_idle {i : Instr} (h : (signals i).readB = false) (idle : Byte) (s : State) : busB idle i s = idle :=
  if_neg (by rw [h]; exact Bool.false_ne_true)

theorem stackBus_read {i : Instr} (h : (signals i).memRe = true) (idle : Byte) (s : State) :
    stackBus idle i s = s.byte s.sp.toNat := if_pos h

theorem stackBus_idle {i : Instr} (h : (signals i).memRe = false) (idle : Byte) (s : State) :
    stackBus idle i s = idle :=
  if_neg (by rw [h]; exact Bool.false_ne_true)

/-! R136: the table's answers, in the order of its checks. -/

theorem faultTable_operand {idle : Byte} {i : Instr} {s : State} (h : 255 < s.pc.toNat + (signals i).operandBytes) :
    faultTable idle i s = some .addressingError := if_pos h

theorem faultTable_register {idle : Byte} {i : Instr} {s : State} (h : ∃ b ∈ i.regOperands, 7 < b.toNat) :
    faultTable idle i s = some .addressingError := by
  rw [faultTable, if_pos h, ite_self]

theorem faultTable_division {idle : Byte} {i : Instr} {s : State} (hop : s.pc.toNat + (signals i).operandBytes ≤ 255)
    (hreg : ¬ ∃ b ∈ i.regOperands, 7 < b.toNat) (h : divides i = true ∧ busB idle i s = 0#8) :
    faultTable idle i s = some .divisionByZero := by
  rw [faultTable, if_neg (by omega), if_neg hreg, if_pos h]

theorem faultTable_late {idle : Byte} {i : Instr} {s : State} (hdiv : ¬ (divides i = true ∧ busB idle i s = 0#8))
    (h : stackFault i s = true ∨ pcFault i s = true) : faultTable idle i s = some .addressingError := by
  rw [faultTable, if_neg hdiv]
  rcases h with h | h
  · rw [if_pos h, ite_self, ite_self]
  · rw [if_pos h, ite_self, ite_self, ite_self]

theorem faultTable_none {idle : Byte} {i : Instr} {s : State} (hop : s.pc.toNat + (signals i).operandBytes ≤ 255)
    (hreg : ¬ ∃ b ∈ i.regOperands, 7 < b.toNat) (hdiv : ¬ (divides i = true ∧ busB idle i s = 0#8))
    (hst : stackFault i s = false) (hpc : pcFault i s = false) : faultTable idle i s = none := by
  rw [faultTable, if_neg (by omega), if_neg hreg, if_neg hdiv, hst, hpc]
  rfl

end Sys2Proof.Machine
end

