-- ==== Sys2Proof/Tests/Slice0.lean ====
section
/-! SUPPORT. The model's own tests. Expected values come from the tables of spec/95_test_vectors.md (the section is named at
each group) and from the encoding table of spec/30_encoding.md R58. The theorems `witness_<Name>` show, for the
statement `Obligations.<Name>`, states and operands that meet its hypotheses, at the ends of the ranges it names. -/

namespace Sys2Proof.Tests

open Sys2Proof Sys2Proof.Machine Sys2Proof.Claims

/-! Helpers. -/

/-- The reset state with PC at `pc` and `code` in memory from there on. -/
def codeAt (pc : Byte) (code : List Byte) : State :=
  placeFrom pc.toNat code (State.reset.setPc pc)

/-- The reset state with `R0 = u`, `R1 = v`, PC at 6, and one two-operand instruction on R0, R1 there. -/
def binaryAt6 (word u v : Byte) : State :=
  ((codeAt 6#8 [word, 0#8, 1#8]).setReg 0 u).setReg 1 v

/-- The reset state with `R2 = u`, PC at 3, and one one-operand instruction on R2 there. -/
def unaryAt3 (word u : Byte) : State :=
  (codeAt 3#8 [word, 2#8]).setReg 2 u

/-- The form of section 2.3: a conditional jump on R3 = 40 at address 20, under FL = `fl`. -/
def jumpAt20 (word fl : Byte) : State :=
  ((codeAt 20#8 [word, 3#8]).setReg 3 40#8).setFl fl

/-- The state after one step, or the state itself where there is no step. -/
def next (s : State) : State :=
  match step s with
  | .next t => t
  | .fault _ | .refused _ => s

/-- Two outcomes compared. -/
def stepsTo (s t : State) : Bool :=
  match step s with
  | .next u => decide (u = t)
  | .fault _ | .refused _ => false

theorem step_of_stepsTo {s t : State} (h : stepsTo s t = true) : step s = .next t := by
  unfold stepsTo at h
  split at h
  · next hs => rw [hs, of_decide_eq_true h]
  · cases h
  · cases h

/-- The step takes a fault, precisely. -/
def faultsWith (c : Cause) (s : State) : Bool :=
  stepsTo s { s with run := .faulted c }

/-- The bytes decode to `i`, with `rest` left over. -/
def decodesTo (bytes : List Byte) (i : Instr) (rest : List Byte) : Bool :=
  match decode bytes with
  | .ok r => decide (r = (i, rest))
  | .error _ => false

/-- The bytes are refused for the reason `e`. -/
def decodeRefuses (bytes : List Byte) (e : DecodeError) : Bool :=
  match decode bytes with
  | .ok _ => false
  | .error e' => decide (e' = e)

/-- R0 after one two-operand instruction. -/
def binaryResult (word u v : Byte) : Nat :=
  ((next (binaryAt6 word u v)).reg 0).toNat

/-- R2 after one one-operand instruction. -/
def unaryResult (word u : Byte) : Nat :=
  ((next (unaryAt3 word u)).reg 2).toNat

/-- PC after one conditional jump, for FL unset, EQUAL, GREATER, LESS. -/
def jumpRow (word : Byte) : List Nat :=
  [0b000#8, 0b001#8, 0b010#8, 0b100#8].map (fun fl => (next (jumpAt20 word fl)).pc.toNat)

/-! WellFormed: for each register operand of each shape, one term that the check refuses (R12, R53). -/

theorem test_wf_refuses_first_register_of_two :
    [Instr.add 8 0, .sub 9 0, .mul 16 0, .div 128 0, .mod 255 0, .cmp 8 7, .and 8 7, .or 8 7, .xor 8 7, .shl 8 7, .shr 8 7].all
      (fun i => !i.wf) = true := by decide

theorem test_wf_refuses_second_register_of_two :
    [Instr.add 0 8, .sub 0 9, .mul 0 16, .div 0 128, .mod 0 255, .cmp 7 8, .and 7 8, .or 7 8, .xor 7 8, .shl 7 8, .shr 7 8].all
      (fun i => !i.wf) = true := by decide

theorem test_wf_refuses_only_register :
    [Instr.inc 8, .dec 8, .not 8, .call 8, .jmp 8, .jeq 8, .jne 8, .jgt 8, .jlt 8, .jle 8, .jge 8, .push 8, .pop 8, .prn 8,
      .ldi 8 0].all (fun i => !i.wf) = true := by decide

theorem test_wf_accepts_every_immediate_and_register_seven :
    [Instr.ldi 7 255, .add 7 7, .inc 7, .ret, .nop, .hlt].all (fun i => i.wf) = true := by decide

/-! Decoding: every constructor's bytes written out from the binary column of R58. -/

theorem test_decode_alu_two_operands :
    decodesTo [0b10100000, 1, 2] (.add 1 2) [] ∧ decodesTo [0b10100001, 1, 2] (.sub 1 2) [] ∧
    decodesTo [0b10100010, 1, 2] (.mul 1 2) [] ∧ decodesTo [0b10100011, 1, 2] (.div 1 2) [] ∧
    decodesTo [0b10100100, 1, 2] (.mod 1 2) [] ∧ decodesTo [0b10100111, 1, 2] (.cmp 1 2) [] ∧
    decodesTo [0b10101000, 1, 2] (.and 1 2) [] ∧ decodesTo [0b10101010, 1, 2] (.or 1 2) [] ∧
    decodesTo [0b10101011, 1, 2] (.xor 1 2) [] ∧ decodesTo [0b10101100, 1, 2] (.shl 1 2) [] ∧
    decodesTo [0b10101101, 1, 2] (.shr 1 2) [] := by
  decide

theorem test_decode_alu_one_operand :
    decodesTo [0b01100101, 6, 9] (.inc 6) [9] ∧ decodesTo [0b01100110, 6, 9] (.dec 6) [9] ∧
    decodesTo [0b01101001, 6, 9] (.not 6) [9] := by
  decide

theorem test_decode_pcm :
    decodesTo [0b01010000, 3] (.call 3) [] ∧ decodesTo [0b00010001, 3] .ret [3] ∧
    decodesTo [0b01010100, 3] (.jmp 3) [] ∧ decodesTo [0b01010101, 3] (.jeq 3) [] ∧
    decodesTo [0b01010110, 3] (.jne 3) [] ∧ decodesTo [0b01010111, 3] (.jgt 3) [] ∧
    decodesTo [0b01011000, 3] (.jlt 3) [] ∧ decodesTo [0b01011001, 3] (.jle 3) [] ∧
    decodesTo [0b01011010, 3] (.jge 3) [] := by
  decide

theorem test_decode_misc_and_halt :
    decodesTo [0b00000000, 3] .nop [3] ∧ decodesTo [0b00000001, 3] .hlt [3] ∧
    decodesTo [0b10000010, 4, 0b11111111] (.ldi 4 255) [] ∧ decodesTo [0b01000101, 4] (.push 4) [] ∧
    decodesTo [0b01000110, 4] (.pop 4) [] ∧ decodesTo [0b01000111, 4] (.prn 4) [] := by
  decide

/-- Section 2.5, every word of its table. -/
theorem test_reserved_words :
    ([0x02, 0x20, 0x60, 0xE0, 0x41, 0x81, 0xC1, 0x10, 0x51, 0x30, 0xB0, 0xFF, 0x52, 0x53, 0x5B, 0x83, 0x84, 0x48, 0xAE,
      0xAF] : List Byte).all (fun w => decodeRefuses [w, 0, 1] (.reservedWord w)) = true := by
  decide

/-- Section 2.5: 29 words decode, 227 do not. -/
theorem test_count_of_words :
    ((List.range 256).filter (fun n => (decodeWord (BitVec.ofNat 8 n)).isSome)).length = 29 := by
  decide

theorem test_decode_missing_bytes :
    decodeRefuses [] .noWord ∧ decodeRefuses [0xA0] (.operandMissing 0xA0) ∧
    decodeRefuses [0xA0, 0] (.operandMissing 0xA0) ∧ decodeRefuses [0x54] (.operandMissing 0x54) := by
  decide

/-- Table words: bit 0 is the lowest bit of the first byte. -/
theorem test_decode_table_word :
    decodeTableWord 24 0x0201A0 = some (.add 1 2) ∧ decodeTableWord 8 0xA0 = some (.add 0 0) ∧
    decodeTableWord 16 0x0354 = some (.jmp 3) ∧ decodeTableWord 8 0x01 = some .hlt ∧ decodeTableWord 8 0x41 = none := by
  decide

/-- A term that is not well-formed is still read: the byte is checked when the instruction runs. -/
theorem test_decode_keeps_the_whole_operand_byte : decodesTo [0x54, 0x08] (.jmp 8) [] := by decide

/-! One step of each instruction. Section 2.1. -/

theorem test_add : binaryResult 0xA0 5 3 = 8 ∧ binaryResult 0xA0 200 100 = 44 ∧ binaryResult 0xA0 255 1 = 0 := by decide

theorem test_sub : binaryResult 0xA1 3 5 = 254 ∧ binaryResult 0xA1 0 1 = 255 ∧ binaryResult 0xA1 200 100 = 100 := by decide

theorem test_mul : binaryResult 0xA2 16 16 = 0 ∧ binaryResult 0xA2 255 255 = 1 ∧ binaryResult 0xA2 255 2 = 254 := by decide

theorem test_div : binaryResult 0xA3 200 7 = 28 ∧ binaryResult 0xA3 255 2 = 127 ∧ binaryResult 0xA3 7 8 = 0 := by decide

theorem test_div_by_zero : faultsWith .divisionByZero (binaryAt6 0xA3 9 0) := by decide

theorem test_mod : binaryResult 0xA4 200 7 = 4 ∧ binaryResult 0xA4 255 16 = 15 ∧ binaryResult 0xA4 7 8 = 7 := by decide

theorem test_mod_by_zero : faultsWith .divisionByZero (binaryAt6 0xA4 9 0) := by decide

theorem test_and : binaryResult 0xA8 204 170 = 136 ∧ binaryResult 0xA8 255 0 = 0 := by decide

theorem test_or : binaryResult 0xAA 204 170 = 238 ∧ binaryResult 0xAA 0 0 = 0 := by decide

theorem test_xor : binaryResult 0xAB 204 170 = 102 ∧ binaryResult 0xAB 255 255 = 0 := by decide

theorem test_shl : binaryResult 0xAC 3 4 = 48 ∧ binaryResult 0xAC 129 1 = 2 ∧ binaryResult 0xAC 1 7 = 128 ∧
    binaryResult 0xAC 1 8 = 0 ∧ binaryResult 0xAC 255 255 = 0 ∧ binaryResult 0xAC 77 0 = 77 := by
  decide

theorem test_shr : binaryResult 0xAD 200 3 = 25 ∧ binaryResult 0xAD 129 1 = 64 ∧ binaryResult 0xAD 128 7 = 1 ∧
    binaryResult 0xAD 255 8 = 0 ∧ binaryResult 0xAD 255 200 = 0 ∧ binaryResult 0xAD 77 0 = 77 := by
  decide

/-- The same register as both operands: SHL R0, R0 with 3 gives 24, and PC moves by 3. -/
theorem test_same_register_twice :
    (next ((codeAt 3 [0xAC, 0, 0]).setReg 0 3)).reg 0 = 24 ∧ (next ((codeAt 3 [0xAC, 0, 0]).setReg 0 3)).pc = 6 := by
  decide

/-! Section 2.2. -/

theorem test_inc : unaryResult 0x65 9 = 10 ∧ unaryResult 0x65 255 = 0 ∧ (next (unaryAt3 0x65 255)).fl = 0 := by decide

theorem test_dec : unaryResult 0x66 5 = 4 ∧ unaryResult 0x66 0 = 255 ∧ (next (unaryAt3 0x66 1)).fl = 0 := by decide

theorem test_not : unaryResult 0x69 15 = 240 ∧ unaryResult 0x69 0 = 255 ∧ unaryResult 0x69 170 = 85 := by decide

theorem test_cmp :
    [(0, 0), (255, 255), (0, 255), (255, 0), (127, 128), (128, 127), (1, 2)].map
        (fun p : Byte × Byte => (next (binaryAt6 0xA7 p.1 p.2)).fl) =
      [0b001, 0b001, 0b100, 0b010, 0b100, 0b010, 0b100] := by
  decide

/-! Section 2.3. -/

theorem test_call :
    let t := next ((codeAt 6 [0x50, 1]).setReg 1 12)
    t.pc = 12 ∧ t.sp = 254 ∧ t.byte 254 = 8 := by
  decide

/-- The return address overwrites the CALL's own operand byte. -/
theorem test_call_at_253 :
    let t := next ((codeAt 253 [0x50, 1]).setReg 1 12)
    t.pc = 12 ∧ t.sp = 254 ∧ t.byte 254 = 255 := by
  decide

theorem test_ret :
    let t := next (((codeAt 255 [0x11]).setSp 254).setByte 254 8)
    t.pc = 8 ∧ t.sp = 255 ∧ t.byte 254 = 8 := by
  decide

theorem test_ret_on_empty_stack : faultsWith .addressingError (codeAt 22 [0x11]) := by decide

theorem test_jmp :
    (next ((codeAt 20 [0x54, 3]).setReg 3 12)).pc = 12 ∧ (next ((codeAt 254 [0x54, 3]).setReg 3 0)).pc = 0 := by
  decide

theorem test_jmp_to_itself : stepsTo ((codeAt 20 [0x54, 3]).setReg 3 20) ((codeAt 20 [0x54, 3]).setReg 3 20) := by
  decide

theorem test_jeq : jumpRow 0x55 = [22, 40, 22, 22] := by decide

theorem test_jne : jumpRow 0x56 = [40, 22, 40, 40] := by decide

theorem test_jgt : jumpRow 0x57 = [22, 22, 40, 22] := by decide

theorem test_jlt : jumpRow 0x58 = [22, 22, 22, 40] := by decide

theorem test_jle : jumpRow 0x59 = [22, 40, 22, 40] := by decide

theorem test_jge : jumpRow 0x5A = [22, 40, 40, 22] := by decide

/-- Not taken, register index 9: checked all the same. -/
theorem test_jeq_checks_its_register : faultsWith .addressingError (codeAt 20 [0x55, 9]) := by decide

/-! Section 2.4. -/

theorem test_nop : stepsTo (codeAt 11 [0x00]) (codeAt 12 []) ∧ faultsWith .addressingError (codeAt 255 [0x00]) := by
  decide

theorem test_ldi : (next (codeAt 0 [0x82, 7, 0xFF])).reg 7 = 255 ∧ (next (codeAt 252 [0x82, 0, 9])).pc = 255 := by decide

theorem test_ldi_at_the_top :
    faultsWith .addressingError (codeAt 253 [0x82, 0, 0xC8]) ∧ faultsWith .addressingError (codeAt 254 [0x82, 0]) := by
  decide

theorem test_push :
    let t := next ((codeAt 12 [0x45, 1]).setReg 1 12)
    t.sp = 254 ∧ t.byte 254 = 12 ∧ t.byte 255 = 0 ∧ t.pc = 14 := by
  decide

theorem test_push_on_full_stack : faultsWith .addressingError ((codeAt 12 [0x45, 1]).setSp 0) := by decide

theorem test_pop :
    let t := next ((((codeAt 20 [0x46, 1]).setSp 254).setByte 254 12).setReg 1 2)
    t.reg 1 = 12 ∧ t.sp = 255 ∧ t.pc = 22 ∧ t.byte 254 = 12 := by
  decide

/-- With SP at 0 the pop takes the program's own first byte. -/
theorem test_pop_at_zero :
    (next ((codeAt 0 [0x46, 0]).setSp 0)).reg 0 = 70 ∧ (next ((codeAt 0 [0x46, 0]).setSp 0)).sp = 1 := by
  decide

theorem test_prn :
    let t := next ((codeAt 9 [0x47, 0]).setReg 0 255)
    t.out = [255] ∧ hostLines t = ["255"] ∧ t.pc = 11 := by
  decide

theorem test_prn_at_the_top : faultsWith .addressingError ((codeAt 254 [0x47, 0]).setReg 0 8) := by decide

theorem test_hlt :
    (next (codeAt 255 [0x01])).run = .halted ∧ (next (codeAt 255 [0x01])).pc = 255 ∧
      statusCode (next (codeAt 255 [0x01])).run = 0 := by
  decide

/-! Section 2.6. -/

theorem test_fault_priority :
    faultsWith .unsupportedOperation (codeAt 255 [0xFF]) ∧
    faultsWith .divisionByZero ((codeAt 253 [0xA3, 0, 1]).setReg 0 9) ∧
    faultsWith .addressingError ((codeAt 0 [0xA3, 0, 8]).setReg 0 9) ∧
    faultsWith .addressingError ((codeAt 253 [0xA0, 0, 1]).setReg 0 1) ∧
    faultsWith .addressingError (codeAt 0 [0xA0, 8, 9]) := by
  decide

/-- The fault codes of R130, and R143: a halt and a fault are told apart by RUN. -/
theorem test_status_codes :
    [RunState.faulted .unsupportedOperation, .faulted .addressingError, .faulted .divisionByZero, .halted].map statusCode =
      [1, 2, 3, 0] := by
  decide

/-! Assembly spelling, the examples of R61. -/

theorem test_asm :
    [Instr.ret, .push 3, .add 0 1, .ldi 2 200].map Instr.asm = ["RET", "PUSH R3", "ADD R0, R1", "LDI R2, 200"] := by
  decide

/-! Load: an image of the listing S1, its first bytes; an empty image is legal (R151). -/

theorem test_boot :
    (State.boot [0x82, 0x00, 0x05]).map (fun s => (s.byte 0, s.byte 2, s.byte 3)) = some (0x82, 0x05, 0) ∧
      State.boot [] = some State.reset := by
  decide

/-! Witnesses of the statements' hypotheses. -/

theorem witness_DecodeAndEncodeAgree : decode [0xA0#8, 255#8, 9#8, 7#8] = .ok (.add 255#8 9#8, [7#8]) := by decide

/-- One canonical word of each category that is not HALT, one reserved word, and for the clause on the selected operation a word
of each length. -/
theorem witness_WordFieldsSelectTheInstruction :
    (0xA0#8 ≠ 0x01#8 ∧ (decodeWord 0xA0#8).isSome = true) ∧ (0x11#8 ≠ 0x01#8 ∧ (decodeWord 0x11#8).isSome = true) ∧
    (0x82#8 ≠ 0x01#8 ∧ (decodeWord 0x82#8).isSome = true) ∧ (0x41#8 ≠ 0x01#8 ∧ (decodeWord 0x41#8).isSome = false) ∧
    decode [0xA1#8, 1#8, 2#8] = .ok (.sub 1#8 2#8, []) ∧ decode [0x5A#8, 1#8, 2#8] = .ok (.jge 1#8, [2#8]) ∧
    decode [0x11#8, 1#8, 2#8] = .ok (.ret, [1#8, 2#8]) := by
  decide

/-- A three-byte instruction whose last byte lies at 255, a one-byte instruction at 255. -/
theorem witness_StepRunsTheDecodedInstruction :
    ((codeAt 253 [0xA0, 1, 2]).run = .running ∧ decode (bytesAtPc (codeAt 253 [0xA0, 1, 2])) = .ok (.add 1 2, [])) ∧
    ((codeAt 255 [0x11]).run = .running ∧ decode (bytesAtPc (codeAt 255 [0x11])) = .ok (.ret, [])) := by
  decide

theorem witness_ReservedWordRaisesUnsupportedOperation :
    (codeAt 255 [0xFF]).run = .running ∧ ((codeAt 255 [0xFF]).byte (codeAt 255 [0xFF]).pc.toNat).toNat ∉ canonicalWords := by
  decide

theorem witness_OperandBeyondMemoryRaisesAddressingError :
    ((codeAt 255 [0x54]).run = .running ∧ (codeAt 255 [0x54]).byte (codeAt 255 [0x54]).pc.toNat = (Instr.jmp 0).word ∧
      255 < (codeAt 255 [0x54]).pc.toNat + (Instr.jmp 0).nops) ∧
    ((codeAt 254 [0xA0]).run = .running ∧ (codeAt 254 [0xA0]).byte (codeAt 254 [0xA0]).pc.toNat = (Instr.add 0 0).word ∧
      255 < (codeAt 254 [0xA0]).pc.toNat + (Instr.add 0 0).nops) := by
  decide

theorem witness_StoppedMachineHasNoStep :
    (State.reset.setRun .halted).run = .halted ∧
    (State.reset.setRun (.faulted .divisionByZero)).run = .faulted .divisionByZero ∧ State.reset.run = .running := by
  decide

/-- A push that lists a new cell, from a state with a legal FL that is not the reset value. -/
theorem witness_EveryStepKeepsTheInvariant :
    let s := ((codeAt 12 [0x45, 1]).setReg 1 7).setFl 0b010
    s.inv = true ∧ ∃ t, step s = .next t ∧ t.byte 254 = 7 := by
  exact ⟨by decide, next (((codeAt 12 [0x45, 1]).setReg 1 7).setFl 0b010), step_of_stepsTo (by decide), by decide⟩

/-- The empty image, the longest image, the shortest image that is refused, on a state with canonical memory. -/
theorem witness_LoadPlacesTheImage :
    State.reset.inv = true ∧ ([] : List Byte).length ≤ 256 ∧ (List.replicate 256 (7#8 : Byte)).length ≤ 256 ∧
    256 < (List.replicate 257 (7#8 : Byte)).length := by
  refine ⟨by decide, by decide, ?_, ?_⟩ <;> simp only [List.length_replicate] <;> decide

theorem witness_PlacedWordRunsNext :
    (codeAt 253 []).inv = true ∧ (codeAt 253 []).run = .running ∧ (codeAt 253 []).pc.toNat ≤ 253 ∧
    decodeTableWord 24 0x0201A0 = some (.add 1 2) := by
  decide

/-- The last index, the first byte above it, and an instruction with such a byte in second place. -/
theorem witness_RegisterIndexIsChecked :
    (7#8).toNat ≤ 7 ∧ 7 < (8#8).toNat ∧ (∃ b ∈ (Instr.add 0#8 8#8).regOperands, 7 < b.toNat) := by
  decide

/-- Addresses -1 and 256 outside, 0 and 255 inside. -/
theorem witness_MemoryPrimitivesCheckAndAccess :
    State.reset.mem.wf = true ∧ ((-1 : Int) < 0 ∨ (255 : Int) < -1) ∧ ((256 : Int) < 0 ∨ (255 : Int) < 256) ∧
    ((0 : Int) = (0 : Nat) ∧ 0 ≤ 255) ∧ ((255 : Int) = (255 : Nat) ∧ 255 ≤ 255) := by
  decide

/-- Two ways to the same cells: written in one order and in the other, one cell written twice. -/
theorem witness_CanonicalMemoriesWithEqualCellsAreEqual :
    let s := (State.reset.setByte 3 1).setByte 9 2
    let t := ((State.reset.setByte 9 7).setByte 3 1).setByte 9 2
    s.mem.wf = true ∧ t.mem.wf = true ∧ ∀ a, a < 256 → s.byte a = t.byte a :=
  ⟨by decide, by decide, fun _ _ => rfl⟩

theorem witness_PushChecksThenStores :
    State.reset.mem.wf = true ∧ (State.reset.setSp 0).sp = 0#8 ∧ (State.reset.setSp 1).sp ≠ 0#8 ∧ State.reset.sp ≠ 0#8 := by
  decide

theorem witness_PopChecksThenReads :
    State.reset.sp = 255#8 ∧ (State.reset.setSp 254).sp ≠ 255#8 ∧ (State.reset.setSp 0).sp ≠ 255#8 := by
  decide

/-- The highest PC from which a three-byte instruction completes; it serves the statements with that bound. -/
theorem witness_AddSubMulResults : (codeAt 252 []).pc.toNat ≤ 252 := by decide

theorem witness_DivModResults :
    ((codeAt 252 []).setReg 1 255).pc.toNat ≤ 252 ∧ ((codeAt 252 []).setReg 1 255).reg 1 ≠ 0#8 ∧
    ((codeAt 252 []).setReg 0 1).reg 0 ≠ 0#8 := by
  decide

/-- Each side of the equivalence: a division by zero, and a division that completes. -/
theorem witness_DivisionByZeroExactlyFromDivAndMod :
    (step (binaryAt6 0xA3 9 0) = .next (next (binaryAt6 0xA3 9 0)) ∧
      (next (binaryAt6 0xA3 9 0)).run = .faulted .divisionByZero ∧ fetchInstr (binaryAt6 0xA3 9 0) = .ok (.div 0 1) ∧
      (binaryAt6 0xA3 9 0).reg 1 = 0#8) ∧
    (step (binaryAt6 0xA4 9 1) = .next (next (binaryAt6 0xA4 9 1)) ∧ (next (binaryAt6 0xA4 9 1)).run = .running) :=
  ⟨⟨step_of_stepsTo (by decide), by decide, rfl, by decide⟩, step_of_stepsTo (by decide), by decide⟩

/-- The highest PC from which a two-byte instruction completes; it serves the statements with that bound. -/
theorem witness_IncDecResults : (codeAt 253 []).pc.toNat ≤ 253 := by decide

theorem witness_NotInvertsEveryBit : (codeAt 253 []).pc.toNat ≤ 253 ∧ 7 < 8 := by decide

theorem witness_AndOrXorBits : (codeAt 252 []).pc.toNat ≤ 252 := by decide

/-- Amounts 8 and 255 for the clause on long shifts. -/
theorem witness_ShiftResults :
    (codeAt 252 []).pc.toNat ≤ 252 ∧ 8 ≤ (((codeAt 252 []).setReg 1 8).reg 1).toNat ∧
    8 ≤ (((codeAt 252 []).setReg 1 255).reg 1).toNat := by
  decide

/-- Equal, greater and less, at 0 and 255. -/
theorem witness_CmpSetsExactlyOneFlag :
    let s := (codeAt 252 []).setReg 0 255
    s.pc.toNat ≤ 252 ∧ (s.reg 0).toNat = (s.reg 0).toNat ∧ (s.reg 0).toNat > (s.reg 1).toNat ∧
      (s.reg 1).toNat < (s.reg 0).toNat := by
  decide

/-- ADD R0, R1 and ADD R5, R6, and CMP likewise, in two states that differ in PC, SP and FL, with 200 and 100 in the operand
registers of each. -/
theorem witness_AluResultDependsOnlyOnItsOperands :
    let s := binaryAt6 0xA0 200 100
    let s' := ((((codeAt 252 []).setReg 5 200).setReg 6 100).setSp 9).setFl 0b100
    ((Instr.add 0 1).unit = .alu ∧ (Instr.add 0 1).word = (Instr.add 5 6).word ∧
      (Instr.add 0 1).regOperands = [0, 1].map regByte ∧ (Instr.add 5 6).regOperands = [5, 6].map regByte) ∧
    ((Instr.cmp 0 1).unit = .alu ∧ (Instr.cmp 0 1).word = (Instr.cmp 5 6).word ∧
      (Instr.cmp 0 1).regOperands = [0, 1].map regByte ∧ (Instr.cmp 5 6).regOperands = [5, 6].map regByte) ∧
    [0, 1].map s.reg = [5, 6].map s'.reg ∧ s.run = .running ∧ s'.run = .running ∧
    (∃ t, exec (.add 0 1) s = .next t ∧ t.run = .running) ∧ (∃ t, exec (.add 5 6) s' = .next t ∧ t.run = .running) ∧
    (∃ t, exec (.cmp 0 1) s = .next t ∧ t.run = .running) ∧ ∃ t, exec (.cmp 5 6) s' = .next t ∧ t.run = .running :=
  ⟨by decide, by decide, by decide, by decide, by decide, ⟨_, rfl, rfl⟩, ⟨_, rfl, rfl⟩, ⟨_, rfl, rfl⟩, ⟨_, rfl, rfl⟩⟩

/-- The deepest push, from the highest PC. -/
theorem witness_CallPushesTheReturnAddress :
    let s := (codeAt 253 []).setSp 1
    s.mem.wf = true ∧ s.sp ≠ 0#8 ∧ s.pc.toNat ≤ 253 ∧ pushAddr s = (0 : Nat) := by
  decide

theorem witness_RetGoesToTheTopOfTheStack : (State.reset.setSp 254).sp ≠ 255#8 ∧ (State.reset.setSp 0).sp ≠ 255#8 := by
  decide

/-- For each jump an FL under which it is taken; for JLE and JGE both. -/
theorem witness_ConditionalJumpTaken :
    (jumpAt20 0x55 0b001).fl.getLsbD 0 = true ∧ (jumpAt20 0x56 0b000).fl.getLsbD 0 = false ∧
    (jumpAt20 0x57 0b010).fl.getLsbD 1 = true ∧ (jumpAt20 0x58 0b100).fl.getLsbD 2 = true ∧
    ((jumpAt20 0x59 0b001).fl.getLsbD 0 = true ∨ (jumpAt20 0x59 0b001).fl.getLsbD 2 = true) ∧
    ((jumpAt20 0x59 0b100).fl.getLsbD 0 = true ∨ (jumpAt20 0x59 0b100).fl.getLsbD 2 = true) ∧
    ((jumpAt20 0x5A 0b001).fl.getLsbD 0 = true ∨ (jumpAt20 0x5A 0b001).fl.getLsbD 1 = true) ∧
    ((jumpAt20 0x5A 0b010).fl.getLsbD 0 = true ∨ (jumpAt20 0x5A 0b010).fl.getLsbD 1 = true) := by
  decide

/-- For each jump an FL under which it falls through, at the highest PC. -/
theorem witness_ConditionalJumpNotTaken :
    let s := fun fl : Byte => (codeAt 253 []).setFl fl
    (s 0).pc.toNat ≤ 253 ∧ (s 0b010).fl.getLsbD 0 = false ∧ (s 0b001).fl.getLsbD 0 = true ∧
    (s 0b001).fl.getLsbD 1 = false ∧ (s 0b010).fl.getLsbD 2 = false ∧
    ((s 0b010).fl.getLsbD 0 = false ∧ (s 0b010).fl.getLsbD 2 = false) ∧
    ((s 0b100).fl.getLsbD 0 = false ∧ (s 0b100).fl.getLsbD 1 = false) := by
  decide

/-- CALL at 253 with SP = 1, and a later state whose SP is 0 and whose cell 0 still holds 255. -/
theorem witness_RetReturnsAfterItsCall :
    let s := (codeAt 253 [0x50, 1]).setSp 1
    let t := next s
    let u := (t.setReg 5 9).setFl 0b001
    s.mem.wf = true ∧ s.run = .running ∧ exec (.call (regByte 1)) s = .next t ∧ t.run = .running ∧ u.sp ≠ 255#8 ∧
    u.sp.toNat = s.sp.toNat - 1 ∧ u.byte (s.sp.toNat - 1) = t.byte (s.sp.toNat - 1) ∧ t.byte 0 = 255 :=
  ⟨by decide, by decide, rfl, by decide, by decide, by decide, by decide, by decide⟩

theorem witness_NopAdvancesPc : (codeAt 254 []).pc.toNat ≤ 254 := by decide

theorem witness_LdiLoadsTheImmediate : (codeAt 252 []).pc.toNat ≤ 252 := by decide

theorem witness_PushStoresTheRegister :
    let s := (codeAt 253 []).setSp 1
    s.mem.wf = true ∧ s.sp ≠ 0#8 ∧ s.pc.toNat ≤ 253 ∧ pushAddr s = (0 : Nat) := by
  decide

theorem witness_PopLoadsTheTopOfTheStack :
    ((codeAt 253 []).setSp 254).sp ≠ 255#8 ∧ ((codeAt 253 []).setSp 254).pc.toNat ≤ 253 := by
  decide

theorem witness_PushThenPopMovesTheByte :
    let s := (codeAt 251 []).setSp 1
    s.mem.wf = true ∧ s.sp ≠ 0#8 ∧ s.pc.toNat ≤ 251 ∧ pushAddr s = (0 : Nat) := by
  decide

theorem witness_PrnEmitsTheRegister : (codeAt 253 []).pc.toNat ≤ 253 := by decide

/-- A HALT word, another instruction, and the three words that are not HALT. -/
theorem witness_HaltIsRecognisedByTheWholeWord :
    ((codeAt 255 [0x01]).run = .running ∧ step (codeAt 255 [0x01]) = .next (next (codeAt 255 [0x01])) ∧
      (next (codeAt 255 [0x01])).run = .halted) ∧
    step (codeAt 0 [0x00]) = .next (next (codeAt 0 [0x00])) ∧
    (codeAt 0 [0x41]).byte (codeAt 0 [0x41]).pc.toNat = 0x41#8 ∧
    (codeAt 0 [0x81]).byte (codeAt 0 [0x81]).pc.toNat = 0x81#8 ∧
    (codeAt 0 [0xC1]).byte (codeAt 0 [0xC1]).pc.toNat = 0xC1#8 :=
  ⟨⟨by decide, step_of_stepsTo (by decide), by decide⟩, step_of_stepsTo (by decide), by decide, by decide, by decide⟩

theorem witness_StackRangeFaults : (State.reset.setSp 0).sp = 0#8 ∧ State.reset.sp = 255#8 := by decide

/-- Each alternative at the lowest PC from which it faults. -/
theorem witness_SuccessorBeyondMemoryRaisesAddressingError :
    let s := fun pc fl : Byte => (codeAt pc []).setFl fl
    (255 < (s 253 0).pc.toNat + (Instr.add 0 1).nops + 1 ∧ ¬ DividesByZero (.add 0 1) (s 253 0) ∧
      (Instr.add 0 1).unit = .alu) ∧
    (255 < (s 255 0).pc.toNat + Instr.nop.nops + 1 ∧ ¬ DividesByZero .nop (s 255 0) ∧ Instr.nop.unit = .misc) ∧
    (255 < (s 254 0).pc.toNat + (Instr.call 3).nops + 1 ∧ ¬ DividesByZero (.call 3) (s 254 0)) ∧
    (255 < (s 254 0b010).pc.toNat + (Instr.jeq 3).nops + 1 ∧ ¬ DividesByZero (.jeq 3) (s 254 0b010) ∧
      (s 254 0b010).fl.getLsbD 0 = false) ∧
    (255 < (s 254 0b001).pc.toNat + (Instr.jne 3).nops + 1 ∧ ¬ DividesByZero (.jne 3) (s 254 0b001) ∧
      (s 254 0b001).fl.getLsbD 0 = true) ∧
    (255 < (s 254 0b001).pc.toNat + (Instr.jgt 3).nops + 1 ∧ ¬ DividesByZero (.jgt 3) (s 254 0b001) ∧
      (s 254 0b001).fl.getLsbD 1 = false) ∧
    (255 < (s 254 0b001).pc.toNat + (Instr.jlt 3).nops + 1 ∧ ¬ DividesByZero (.jlt 3) (s 254 0b001) ∧
      (s 254 0b001).fl.getLsbD 2 = false) ∧
    (255 < (s 254 0b010).pc.toNat + (Instr.jle 3).nops + 1 ∧ ¬ DividesByZero (.jle 3) (s 254 0b010) ∧
      (s 254 0b010).fl.getLsbD 0 = false ∧ (s 254 0b010).fl.getLsbD 2 = false) ∧
    (255 < (s 254 0b100).pc.toNat + (Instr.jge 3).nops + 1 ∧ ¬ DividesByZero (.jge 3) (s 254 0b100) ∧
      (s 254 0b100).fl.getLsbD 0 = false ∧ (s 254 0b100).fl.getLsbD 1 = false) := by
  simp only [DividesByZero, reduceCtorEq, or_self, false_and, exists_false, not_false_eq_true]
  decide

theorem witness_FaultsArePrecise :
    step (codeAt 253 [0xA0, 0, 1]) = .next (next (codeAt 253 [0xA0, 0, 1])) ∧
      (next (codeAt 253 [0xA0, 0, 1])).run = .faulted .addressingError :=
  ⟨step_of_stepsTo (by decide), by decide⟩

theorem witness_FaultPriority :
    ((codeAt 254 [0xFF]).run = .running ∧ 254 ≤ (codeAt 254 [0xFF]).pc.toNat ∧
      ((codeAt 254 [0xFF]).byte (codeAt 254 [0xFF]).pc.toNat).toNat ∉ canonicalWords) ∧
    ((codeAt 253 []).run = .running ∧ (codeAt 253 []).pc.toNat = 253 ∧ (codeAt 253 []).reg 1 = 0#8) ∧ 7 < (8#8).toNat := by
  decide

/-- A step of each kind: not PCM, and PCM. -/
theorem witness_PcIsUpdatedExactlyOnce :
    (step (codeAt 252 [0xA0, 0, 1]) = .next (next (codeAt 252 [0xA0, 0, 1])) ∧
      (next (codeAt 252 [0xA0, 0, 1])).run = .running) ∧
    (step (jumpAt20 0x5A 0b100) = .next (next (jumpAt20 0x5A 0b100)) ∧ (next (jumpAt20 0x5A 0b100)).run = .running) :=
  ⟨⟨step_of_stepsTo (by decide), by decide⟩, step_of_stepsTo (by decide), by decide⟩

/-- An instruction of each unit that gives a next state. -/
theorem witness_UnitsChangeOnlyTheirState :
    ((Instr.cmp 0 1).unit = .alu ∧ ∃ t, exec (.cmp 0 1) State.reset = .next t ∧ t.fl ≠ State.reset.fl) ∧
    ((Instr.call 0).unit = .pcm ∧ ∃ t, exec (.call 0) State.reset = .next t ∧ t.sp ≠ State.reset.sp) ∧
    ((Instr.prn 0).unit = .misc ∧ ∃ t, exec (.prn 0) State.reset = .next t ∧ t.out ≠ State.reset.out) ∧
    (Instr.hlt.unit = .loop ∧ ∃ t, exec .hlt State.reset = .next t ∧ t.run = .halted) :=
  ⟨⟨rfl, _, rfl, by decide⟩, ⟨rfl, _, rfl, by decide⟩, ⟨rfl, _, rfl, by decide⟩, ⟨rfl, _, rfl, by decide⟩⟩

/-- A step in each of the three cases: SP kept, SP moved down to 0, SP moved up to 255. -/
theorem witness_MemoryChangesOnlyBelowTheStackPointer :
    let s := codeAt 0 [0x00]
    let u := ((codeAt 12 [0x45, 1]).setReg 1 99).setSp 1
    let v := (codeAt 22 [0x11]).setSp 254
    (s.mem.wf = true ∧ step s = .next (next s) ∧ (next s).sp = s.sp) ∧
    (u.mem.wf = true ∧ step u = .next (next u) ∧ (next u).sp = 0 ∧ (next u).byte 0 = 99) ∧
    (v.mem.wf = true ∧ step v = .next (next v) ∧ (next v).sp = 255) :=
  ⟨⟨by decide, step_of_stepsTo (by decide), by decide⟩, ⟨by decide, step_of_stepsTo (by decide), by decide, by decide⟩,
    by decide, step_of_stepsTo (by decide), by decide⟩

/-- From address 0, and from the last address. -/
theorem witness_ZeroBytesSlideToAddressingError :
    (State.reset.run = .running ∧ ∀ a, State.reset.pc.toNat ≤ a → a ≤ 255 → State.reset.byte a = 0#8) ∧
    ((codeAt 255 []).run = .running ∧ ∀ a, (codeAt 255 []).pc.toNat ≤ a → a ≤ 255 → (codeAt 255 []).byte a = 0#8) :=
  ⟨⟨rfl, fun _ _ _ => rfl⟩, ⟨rfl, fun _ _ _ => rfl⟩⟩

theorem witness_StepIsTheStepOfTheControlSignals : State.reset.run = .running ∧ (codeAt 253 [0xA3, 0, 1]).run = .running := by
  decide

end Sys2Proof.Tests
end

/-! PROOFS of the statements about the register cells (spec/10_state.md R10) and the register index check (R12). -/

namespace Sys2Proof.Machine

/-! The rule of every instruction that names registers begins with the index checks of its operand bytes. Whatever `rest` does
after them, a byte above 7 among the checked ones is the fault of the whole rule (R12). -/

theorem settle_regIdx_above {a : Byte} {s : State} {rest : Fin 8 → Except Raise State}
    (h : ∃ b ∈ [a], 7 < b.toNat) : settle s (regIdx a >>= rest) = .next (takeFault .addressingError s) := by
  have ha : 7 < a.toNat := by simpa using h
  rw [regIdx_error ha, except_bind_error, settle_error, Raise.cause]

theorem settle_regIdx_pair_above {a b : Byte} {s : State} {rest : Fin 8 → Fin 8 → Except Raise State}
    (h : ∃ c ∈ [a, b], 7 < c.toNat) :
    settle s (regIdx a >>= fun ra => regIdx b >>= rest ra) = .next (takeFault .addressingError s) := by
  rcases regIdx_cases a with ⟨ha, ea⟩ | ⟨ha, _⟩
  · have hb : 7 < b.toNat := by
      have hab : 7 < a.toNat ∨ 7 < b.toNat := by simpa using h
      omega
    rw [ea, except_bind_ok, settle_regIdx_above ⟨b, List.mem_singleton_self b, hb⟩]
  · exact settle_regIdx_above ⟨a, List.mem_singleton_self a, ha⟩

/-- R12 for the whole instruction set: the cases are the formats of R52, by the number of register operands; LDI has one, its
second byte is an immediate. -/
theorem exec_registerAbove {i : Instr} {s : State} (h : ∃ b ∈ i.regOperands, 7 < b.toNat) :
    exec i s = .next (takeFault .addressingError s) := by
  cases i with
  | ret | nop | hlt =>
    obtain ⟨b, hb, _⟩ := h
    exact absurd hb List.not_mem_nil
  | inc | dec | not | call | jmp | jeq | jne | jgt | jlt | jle | jge | push | pop | prn | ldi =>
    exact settle_regIdx_above h
  | add | sub | mul | div | mod | cmp | and | or | xor | shl | shr =>
    exact settle_regIdx_pair_above h

end Sys2Proof.Machine

namespace Sys2Proof.Claims

open Sys2Proof.Machine

/-- Settles O15, from the two outcomes of `regIdx` and from `exec_registerAbove`. -/
theorem registerIndexIsChecked : Obligations.RegisterIndexIsChecked := by
  refine ⟨fun b => ⟨fun h => regIdx_ok (Nat.lt_succ_of_le h), fun h => ?_⟩, fun i s h => ?_⟩
  · exact ⟨.regIndex, regIdx_error h, rfl⟩
  · rw [exec_registerAbove h, takeFault_eq]

/-- Settles O14, from what a register read returns after each kind of write. -/
theorem registersAreIndependentCells : Obligations.RegistersAreIndependentCells := fun s r v =>
  ⟨State.reg_setReg_same s r v, fun _ hq => State.reg_setReg_other s v hq,
    State.setReg_sp s r v, State.setReg_fl s r v, State.setReg_pc s r v,
    State.reg_setSp s v, State.reg_setFl s v, State.reg_setPc s v⟩

end Sys2Proof.Claims

/-! PROOFS of the statement about a push (spec/20_memory.md R37). -/

namespace Sys2Proof.Machine

/-- A rule that checks its register byte and then the stack, as PUSH and CALL do: at `sp = 0` it faults, whatever `rest` does
after the two checks. -/
theorem settle_checkPush_spZero {s : State} {rest : Fin 8 → Unit → Except Raise State} (r : Fin 8) (h : s.sp = 0#8) :
    settle s (regIdx (regByte r) >>= fun ra => checkPush s >>= rest ra) = .next (takeFault .addressingError s) := by
  rw [regIdx_regByte, except_bind_ok, checkPush_error h, except_bind_error, settle_error, Raise.cause]

theorem exec_push_spZero {s : State} (r : Fin 8) (h : s.sp = 0#8) :
    exec (.push (regByte r)) s = .next (takeFault .addressingError s) :=
  settle_checkPush_spZero r h

theorem exec_call_spZero {s : State} (r : Fin 8) (h : s.sp = 0#8) :
    exec (.call (regByte r)) s = .next (takeFault .addressingError s) :=
  settle_checkPush_spZero r h

end Sys2Proof.Machine

namespace Sys2Proof.Claims

open Sys2Proof.Machine

/-- A fault leaves every memory byte as it was (R137). -/
theorem memKept_takeFault (c : Cause) (s : State) : MemKept s (takeFault c s) := State.byte_setRun s (.faulted c)

/-- Settles O18: at `sp = 0` from the failed check, otherwise from the state of `pushByte_ok`, whose store is at the new SP. -/
theorem pushChecksThenStores : Obligations.PushChecksThenStores := by
  intro v s hwf
  constructor
  · intro hsp
    refine ⟨⟨.stackRange, pushByte_error v hsp, rfl⟩, fun r => ⟨?_, ?_⟩⟩
    · exact ⟨_, exec_push_spZero r hsp, takeFault_run _ s, rfl, memKept_takeFault _ s⟩
    · exact ⟨_, exec_call_spZero r hsp, takeFault_run _ s, rfl, memKept_takeFault _ s⟩
  · intro hsp
    have hnew : (s.sp - 1#8).toNat = s.sp.toNat - 1 := (toNat_sub_one hsp).1
    refine ⟨_, pushByte_ok v hsp, hnew, ?_, fun b hb => ?_, rfl⟩
    · rw [State.setByte_sp, State.setSp_sp, hnew]
      exact State.byte_setByte_same _ v hwf
    · rw [State.setByte_sp, State.setSp_sp, hnew] at hb
      rw [State.byte_setByte_other _ v hb, State.byte_setSp]

end Sys2Proof.Claims

/-! PROOFS of the statement about the HALT word (spec/30_encoding.md R55): only HLT ends a step HALTED, and only the word
`00000001` decodes to it. -/

namespace Sys2Proof

/-- R58: whatever the operand bytes, the instruction a word selects is one whose word it is. The cases are the rows of the
table. -/
theorem word_fill_of_decodeWord {ir : Byte} {sh : Shape} (h : decodeWord ir = some sh) (a b : Byte) :
    (sh.fill a b).word = ir := by
  unfold decodeWord at h
  split at h
  next hir =>
    cases h
    exact hir.symm
  next => split at h <;> cases h <;> rfl

end Sys2Proof

namespace Sys2Proof.Machine

/-- The fetched instruction is one whose word stands at PC. -/
theorem word_of_fetchInstr {s : State} {i : Instr} (h : fetchInstr s = .ok i) : i.word = s.byte s.pc.toNat := by
  rw [fetchInstr_eq] at h
  split at h
  next => cases h
  next hd =>
    cases h
    exact word_fill_of_decodeWord hd 0 0
  next hd =>
    split at h <;> cases h
    exact word_fill_of_decodeWord hd _ 0
  next hd =>
    split at h <;> cases h
    exact word_fill_of_decodeWord hd _ _

/-- R59: a word outside the table raises before any operand byte is read. -/
theorem fetchInstr_reserved {s : State} (h : decodeWord (s.byte s.pc.toNat) = none) :
    fetchInstr s = .error .unsupportedOperation := by
  rw [fetchInstr_eq, h]

/-- R55: HALT is fetched exactly where the whole word at PC is the HALT word. -/
theorem fetchInstr_hlt_iff (s : State) : fetchInstr s = .ok .hlt ↔ s.byte s.pc.toNat = Config.haltWord := by
  constructor
  · intro h
    exact (word_of_fetchInstr h).symm
  · intro h
    rw [fetchInstr_eq, h]
    rfl

/-- A rule whose commit keeps RUN keeps RUN or faults. -/
theorem settle_run {s t : State} {r : Except Raise State} (h : settle s r = .next t)
    (hcommit : ∀ {u}, r = .ok u → u.run = s.run) : t.run = s.run ∨ ∃ c, t.run = .faulted c := by
  rcases settle_next h with hok | ⟨e, _, rfl⟩
  · exact .inl (hcommit hok)
  · exact .inr ⟨e.cause, takeFault_run e.cause s⟩

/-- Every instruction but HLT keeps RUN or faults. The cases are the shared meanings. -/
theorem exec_run {i : Instr} {s t : State} (hi : i ≠ .hlt) (h : exec i s = .next t) :
    t.run = s.run ∨ ∃ c, t.run = .faulted c := by
  cases i with
  | hlt => exact absurd rfl hi
  | add | sub | mul | and | or | xor | shl | shr =>
    exact settle_run h fun hc => by obtain ⟨_, _, _, _, _, rfl⟩ := binaryOp_inv hc; rfl
  | div | mod => exact settle_run h fun hc => by obtain ⟨_, _, _, _, _, _, rfl⟩ := divisionOp_inv hc; rfl
  | inc | dec | not => exact settle_run h fun hc => by obtain ⟨_, _, _, rfl⟩ := unaryOp_inv hc; rfl
  | cmp => exact settle_run h fun hc => by obtain ⟨_, _, _, _, _, rfl⟩ := compareOp_inv hc; rfl
  | jeq | jne | jgt | jlt | jle | jge =>
    exact settle_run h fun hc => by obtain ⟨_, _, ⟨_, rfl⟩ | ⟨_, _, rfl⟩⟩ := condJump_inv hc <;> rfl
  | call => exact settle_run h fun hc => by obtain ⟨_, _, _, _, rfl⟩ := callOp_inv hc; rfl
  | ret => exact settle_run h fun hc => by obtain ⟨_, rfl⟩ := retOp_inv hc; rfl
  | jmp => exact settle_run h fun hc => by obtain ⟨_, _, rfl⟩ := jumpOp_inv hc; rfl
  | nop => exact settle_run h fun hc => by obtain ⟨_, rfl⟩ := nopOp_inv hc; rfl
  | ldi => exact settle_run h fun hc => by obtain ⟨_, _, _, rfl⟩ := ldiOp_inv hc; rfl
  | push => exact settle_run h fun hc => by obtain ⟨_, _, _, _, rfl⟩ := pushOp_inv hc; rfl
  | pop => exact settle_run h fun hc => by obtain ⟨_, _, _, _, rfl⟩ := popOp_inv hc; rfl
  | prn => exact settle_run h fun hc => by obtain ⟨_, _, _, rfl⟩ := prnOp_inv hc; rfl

/-- R116: run from RUNNING, HLT and no other instruction ends HALTED. -/
theorem exec_halted_iff {i : Instr} {s t : State} (hrun : s.run = .running) (h : exec i s = .next t) :
    t.run = .halted ↔ i = .hlt := by
  constructor
  · intro ht
    by_contra hi
    rcases exec_run hi h with hkept | ⟨c, hfault⟩
    · simp [ht, hrun] at hkept
    · simp [ht] at hfault
  · rintro rfl
    cases h
    exact State.setRun_run s .halted

/-- R55, R116: a step ends HALTED exactly where HALT was fetched. -/
theorem step_halted_iff {s t : State} (h : step s = .next t) : t.run = .halted ↔ fetchInstr s = .ok .hlt := by
  obtain ⟨hrun, ⟨i, hf, hexec⟩ | ⟨e, hf, rfl⟩⟩ := step_inv h
  · rw [exec_halted_iff hrun hexec, hf, Except.ok.injEq]
  · simp [hf]

end Sys2Proof.Machine

namespace Sys2Proof.Claims

open Sys2Proof.Machine

/-- Settles O42: the step ends HALTED exactly where HALT is fetched, and it is fetched exactly at the HALT word; 41, 81 and C1
are no words of the table. -/
theorem haltIsRecognisedByTheWholeWord : Obligations.HaltIsRecognisedByTheWholeWord := by
  intro s hrun
  refine ⟨fun t hstep => (step_halted_iff hstep).trans (fetchInstr_hlt_iff s), fun hw => ?_⟩
  have hreserved : decodeWord (s.byte s.pc.toNat) = none := by
    rcases hw with hw | hw | hw <;> rw [hw] <;> rfl
  exact ⟨_, step_fetchFault hrun (fetchInstr_reserved hreserved), takeFault_run _ s⟩

end Sys2Proof.Claims

/-! PROOFS of the statement about ALU results (spec/41_alu.md R86). The word of an instruction stands for its opcode: what
ignores the operand bytes is a function of the word. -/

namespace Sys2Proof.Machine

/-- R58: the word of an instruction selects its shape, and its operand bytes fill the shape again. -/
theorem decodeWord_word (i : Instr) : ∃ sh, decodeWord i.word = some sh ∧ i = sh.fill (operandA i) (operandB i) := by
  cases i <;> exact ⟨_, rfl, rfl⟩

/-- What does not change when the operand bytes are set to 0 depends on the word alone. -/
theorem eq_of_word_eq {α : Type} {f : Instr → α} {i i' : Instr}
    (hf : ∀ j sh, decodeWord j.word = some sh → f j = f (sh.fill 0 0)) (hw : i.word = i'.word) : f i = f i' := by
  obtain ⟨sh, hd, _⟩ := decodeWord_word i
  rw [hf i sh hd, hf i' sh (hw ▸ hd)]

/-- R57: the word selects the unit. -/
theorem unit_eq_of_word_eq {i i' : Instr} (hw : i.word = i'.word) : i.unit = i'.unit := by
  refine eq_of_word_eq (fun j sh hd => ?_) hw
  cases j <;> cases hd <;> rfl

/-- No other instruction has the word of CMP. -/
theorem eq_cmp_of_word_eq {i : Instr} {a b : Byte} (hw : (Instr.cmp a b).word = i.word) : ∃ a' b', i = .cmp a' b' := by
  obtain ⟨sh, hd, hfill⟩ := decodeWord_word i
  rw [← hw] at hd
  cases hd
  exact ⟨_, _, hfill⟩

/-- What `x[a]` holds after a completed ALU instruction whose operand registers held `xs`: the ALU's output, and after CMP
what it held before (R70, R78). -/
def aluFirst : Instr → List Byte → Byte
  | .cmp _ _, xs => xs.headD 0#8
  | i, xs => aluOutput i (xs.headD 0#8) (xs.getD 1 0#8)

/-- R86: of an instruction only the opcode enters its ALU result. -/
theorem aluFirst_eq_of_word_eq {i i' : Instr} (hw : i.word = i'.word) : aluFirst i = aluFirst i' := by
  refine eq_of_word_eq (fun j sh hd => ?_) hw
  cases j <;> cases hd <;> rfl

theorem regByte_injective : Function.Injective regByte := fun r q h =>
  Fin.ext (by rw [← regByte_toNat r, ← regByte_toNat q, h])

/-- The operand bytes name their registers uniquely. -/
theorem regList_ext {rs qs : List (Fin 8)} (h : qs.map regByte = rs.map regByte) : qs = rs :=
  List.map_injective_iff.mpr regByte_injective h

/-- A rule that ends RUNNING made its commit. -/
theorem settle_completed {s t : State} {r : Except Raise State} (h : settle s r = .next t) (ht : t.run = .running) :
    r = .ok t := by
  rcases settle_next h with hok | ⟨e, _, rfl⟩
  · exact hok
  · simp at ht

/-- A completed ALU instruction leaves `aluFirst` of its operand values in its first register. The cases are the shared
meanings. -/
theorem exec_alu_reg {i : Instr} {rs : List (Fin 8)} {r : Fin 8} {s t : State} (hu : i.unit = .alu)
    (hrs : i.regOperands = rs.map regByte) (h : exec i s = .next t) (ht : t.run = .running) (hr : rs.head? = some r) :
    t.reg r = aluFirst i (rs.map s.reg) := by
  cases i with
  | add | sub | mul | and | or | xor | shl | shr =>
    obtain ⟨ra, rb, rfl, rfl, _, rfl⟩ := binaryOp_inv (settle_completed h ht)
    obtain rfl := regList_ext (qs := [ra, rb]) hrs
    cases hr
    exact State.reg_setReg_same s _ _
  | div | mod =>
    obtain ⟨ra, rb, rfl, rfl, _, _, rfl⟩ := divisionOp_inv (settle_completed h ht)
    obtain rfl := regList_ext (qs := [ra, rb]) hrs
    cases hr
    exact State.reg_setReg_same s _ _
  | inc | dec | not =>
    obtain ⟨ra, rfl, _, rfl⟩ := unaryOp_inv (settle_completed h ht)
    obtain rfl := regList_ext (qs := [ra]) hrs
    cases hr
    exact State.reg_setReg_same s _ _
  | cmp =>
    obtain ⟨ra, rb, rfl, rfl, _, rfl⟩ := compareOp_inv (settle_completed h ht)
    obtain rfl := regList_ext (qs := [ra, rb]) hrs
    cases hr
    rfl
  | call | ret | jmp | jeq | jne | jgt | jlt | jle | jge | nop | hlt | ldi | push | pop | prn => cases hu

/-- R78: a completed CMP leaves in FL the comparison of its operand values. -/
theorem exec_cmp_fl {a b : Byte} {rs : List (Fin 8)} {s t : State} (hrs : (Instr.cmp a b).regOperands = rs.map regByte)
    (h : exec (.cmp a b) s = .next t) (ht : t.run = .running) :
    t.fl = compareFlags ((rs.map s.reg).headD 0#8) ((rs.map s.reg).getD 1 0#8) := by
  obtain ⟨ra, rb, rfl, rfl, _, rfl⟩ := compareOp_inv (settle_completed h ht)
  obtain rfl := regList_ext (qs := [ra, rb]) hrs
  rfl

end Sys2Proof.Machine

namespace Sys2Proof.Claims

open Sys2Proof.Machine

/-- Settles O28: both results are the one function `aluFirst` of the word and the operand values, and FL after CMP is
`compareFlags` of the operand values. -/
theorem aluResultDependsOnlyOnItsOperands : Obligations.AluResultDependsOnlyOnItsOperands := by
  intro i i' rs rs' s s' t t' hu hw hrs hrs' hvals _ _ h h' ht ht'
  have hu' : i'.unit = .alu := unit_eq_of_word_eq hw ▸ hu
  refine ⟨fun r r' hr hr' => ?_, ?_⟩
  · rw [exec_alu_reg hu hrs h ht hr, exec_alu_reg hu' hrs' h' ht' hr', aluFirst_eq_of_word_eq hw, hvals]
  · rintro ⟨a, b, rfl⟩
    obtain ⟨a', b', rfl⟩ := eq_cmp_of_word_eq hw
    rw [exec_cmp_fl hrs h ht, exec_cmp_fl hrs' h' ht', hvals]

end Sys2Proof.Claims

/-! PROOFS of the statement about CALL and its RET (spec/42_pcm.md R102). -/

namespace Sys2Proof.Machine

/-- R92: RET on a stack that is not empty takes the byte on top as its target, whatever put it there. -/
theorem exec_ret_ok {s : State} (hsp : s.sp ≠ 255#8) :
    exec .ret s = .next ((s.setSp (s.sp + 1#8)).setPc (s.byte s.sp.toNat)) :=
  congrArg (settle s) (retOp_ok hsp)

/-- R15: a successor address up to 255 is a plain sum. -/
theorem toNat_pc_add {s : State} {n : Nat} (h : s.pc.toNat + n ≤ 255) :
    (s.pc + BitVec.ofNat 8 n).toNat = s.pc.toNat + n := by
  rw [BitVec.toNat_add, BitVec.toNat_ofNat]
  omega

end Sys2Proof.Machine

namespace Sys2Proof.Claims

open Sys2Proof.Machine

/-- R91: what a RET needs to know of a completed CALL: it had room to push, it kept the registers, and one below its SP it left
the address of the instruction after it. -/
theorem exec_call_completed {a : Byte} {s t : State} (hwf : s.mem.wf = true) (h : exec (.call a) s = .next t)
    (ht : t.run = .running) :
    s.sp ≠ 0#8 ∧ RegsKept s t ∧ (t.byte (s.sp.toNat - 1)).toNat = s.pc.toNat + 2 := by
  obtain ⟨ra, rfl, hsp, hpc, rfl⟩ := callOp_inv (settle_completed h ht)
  refine ⟨hsp, fun r => ?_, ?_⟩
  · rw [State.reg_setPc, State.reg_setByte, State.reg_setSp]
  · rw [State.byte_setPc, State.byte_setByte_same (s := s.setSp (s.sp - 1#8)) _ _ hwf, toNat_pc_add hpc]

/-- Settles O34: a RET with SP one below the CALL's moves SP back up to it and takes the cell that the CALL wrote. -/
theorem retReturnsAfterItsCall : Obligations.RetReturnsAfterItsCall := by
  intro s t u ra hwf _ hcall ht
  obtain ⟨hsp, hregs, hret⟩ := exec_call_completed hwf hcall ht
  refine ⟨hregs, fun hu => ⟨_, exec_ret_ok hu, rfl⟩, fun husp hcell => ?_⟩
  have hu : u.sp = s.sp - 1#8 := BitVec.eq_of_toNat_eq (husp.trans (toNat_sub_one hsp).1.symm)
  have hback : u.sp + 1#8 = s.sp := by rw [hu, BitVec.sub_add_cancel]
  have hroom : u.sp ≠ 255#8 := fun he => hsp (by rw [← hback, he]; rfl)
  refine ⟨_, exec_ret_ok hroom, ?_, hback⟩
  rw [State.setPc_pc, husp, hcell, hret]

end Sys2Proof.Claims

/-! PROOFS of the statement about division by zero (spec/60_exceptions.md R133): only the division rule raises it, and only for a
zero divisor. -/

namespace Sys2Proof.Machine

/-- R132, R133: no other situation is the fault DivisionByZero. -/
theorem Raise.cause_eq_divisionByZero {e : Raise} (h : e.cause = .divisionByZero) : e = .divisionByZero := by
  cases e with
  | divisionByZero => rfl
  | unsupportedOperation | memAddress | regIndex | stackRange | pcRange => cases h

/-- A rule whose commit keeps RUN ends in DivisionByZero only by raising it. -/
theorem settle_divisionByZero {s t : State} {r : Except Raise State} (hrun : s.run = .running)
    (h : settle s r = .next t) (ht : t.run = .faulted .divisionByZero) (hcommit : ∀ {u}, r = .ok u → u.run = s.run) :
    r = .error .divisionByZero := by
  rcases settle_next h with hok | ⟨e, hr, rfl⟩
  · simp [hcommit hok, hrun] at ht
  · rw [takeFault_run, RunState.faulted.injEq] at ht
    rw [hr, Raise.cause_eq_divisionByZero ht]

/-- R133: the division rule ends in DivisionByZero only for a zero divisor. -/
theorem settle_divisionOp_divisionByZero {f : Byte → Byte → Byte} {a b : Byte} {s t : State} (hrun : s.run = .running)
    (h : settle s (divisionOp f a b s) = .next t) (ht : t.run = .faulted .divisionByZero) :
    ∃ ra rb, a = regByte ra ∧ b = regByte rb ∧ s.reg rb = 0#8 := by
  have hr := settle_divisionByZero hrun h ht fun hc => by obtain ⟨_, _, _, _, _, _, rfl⟩ := divisionOp_inv hc; rfl
  simpa using divisionOp_raises hr

/-- R131, R132: what fetch raises is not DivisionByZero. -/
theorem fetchInstr_ne_divisionByZero (s : State) : fetchInstr s ≠ .error .divisionByZero := by
  intro h
  rw [fetchInstr_eq] at h
  split at h
  next => cases h
  next => cases h
  next => split at h <;> cases h
  next => split at h <;> cases h

/-- R145: a faulted machine has no step. -/
theorem step_ne_next_of_faulted {s : State} {c : Cause} (h : s.run = .faulted c) (t : State) : step s ≠ .next t := by
  intro hstep
  have hrun : s.run = .running := (step_inv hstep).1
  rw [h] at hrun
  cases hrun

end Sys2Proof.Machine

namespace Sys2Proof.Claims

open Sys2Proof.Machine

/-- R133, R137: a DIV or MOD by zero takes the fault and leaves the rest of the state as it was, wherever it stands. -/
theorem exec_of_dividesByZero {i : Instr} {s : State} (h : DividesByZero i s) :
    exec i s = .next (takeFault .divisionByZero s) := by
  obtain ⟨ra, rb, rfl | rfl, hz⟩ := h
  · exact congrArg (settle s) (divisionOp_zero ra rb hz)
  · exact congrArg (settle s) (divisionOp_zero ra rb hz)

/-- R133: an instruction that ends in DivisionByZero is a DIV or MOD by zero. The cases are the shared meanings: what the others
can raise is something else, and what they commit keeps RUN. -/
theorem dividesByZero_of_exec {i : Instr} {s t : State} (hrun : s.run = .running) (h : exec i s = .next t)
    (ht : t.run = .faulted .divisionByZero) : DividesByZero i s := by
  cases i with
  | div =>
    obtain ⟨ra, rb, rfl, rfl, hz⟩ := settle_divisionOp_divisionByZero hrun h ht
    exact ⟨ra, rb, .inl rfl, hz⟩
  | mod =>
    obtain ⟨ra, rb, rfl, rfl, hz⟩ := settle_divisionOp_divisionByZero hrun h ht
    exact ⟨ra, rb, .inr rfl, hz⟩
  | hlt => cases h; cases ht
  | add | sub | mul | and | or | xor | shl | shr =>
    have hr := settle_divisionByZero hrun h ht fun hc => by obtain ⟨_, _, _, _, _, rfl⟩ := binaryOp_inv hc; rfl
    simpa using binaryOp_raises hr
  | inc | dec | not =>
    have hr := settle_divisionByZero hrun h ht fun hc => by obtain ⟨_, _, _, rfl⟩ := unaryOp_inv hc; rfl
    simpa using unaryOp_raises hr
  | cmp =>
    have hr := settle_divisionByZero hrun h ht fun hc => by obtain ⟨_, _, _, _, _, rfl⟩ := compareOp_inv hc; rfl
    simpa using compareOp_raises hr
  | jeq | jne | jgt | jlt | jle | jge =>
    have hr := settle_divisionByZero hrun h ht fun hc => by obtain ⟨_, _, ⟨_, rfl⟩ | ⟨_, _, rfl⟩⟩ := condJump_inv hc <;> rfl
    simpa using condJump_raises hr
  | call =>
    have hr := settle_divisionByZero hrun h ht fun hc => by obtain ⟨_, _, _, _, rfl⟩ := callOp_inv hc; rfl
    simpa using callOp_raises hr
  | ret =>
    have hr := settle_divisionByZero hrun h ht fun hc => by obtain ⟨_, rfl⟩ := retOp_inv hc; rfl
    simpa using retOp_raises hr
  | jmp =>
    have hr := settle_divisionByZero hrun h ht fun hc => by obtain ⟨_, _, rfl⟩ := jumpOp_inv hc; rfl
    simpa using jumpOp_raises hr
  | nop =>
    have hr := settle_divisionByZero hrun h ht fun hc => by obtain ⟨_, rfl⟩ := nopOp_inv hc; rfl
    simpa using nopOp_raises hr
  | ldi =>
    have hr := settle_divisionByZero hrun h ht fun hc => by obtain ⟨_, _, _, rfl⟩ := ldiOp_inv hc; rfl
    simpa using ldiOp_raises hr
  | push =>
    have hr := settle_divisionByZero hrun h ht fun hc => by obtain ⟨_, _, _, _, rfl⟩ := pushOp_inv hc; rfl
    simpa using pushOp_raises hr
  | pop =>
    have hr := settle_divisionByZero hrun h ht fun hc => by obtain ⟨_, _, _, _, rfl⟩ := popOp_inv hc; rfl
    simpa using popOp_raises hr
  | prn =>
    have hr := settle_divisionByZero hrun h ht fun hc => by obtain ⟨_, _, _, rfl⟩ := prnOp_inv hc; rfl
    simpa using prnOp_raises hr

/-- R133: a step that ends in DivisionByZero fetched and ran a DIV or MOD by zero. -/
theorem dividesByZero_of_step {s t : State} (h : step s = .next t) (ht : t.run = .faulted .divisionByZero) :
    ∃ i, fetchInstr s = .ok i ∧ DividesByZero i s := by
  obtain ⟨hrun, ⟨i, hf, hexec⟩ | ⟨e, hf, rfl⟩⟩ := step_inv h
  · exact ⟨i, hf, dividesByZero_of_exec hrun hexec ht⟩
  · rw [takeFault_run, RunState.faulted.injEq] at ht
    exact absurd (Raise.cause_eq_divisionByZero ht ▸ hf) (fetchInstr_ne_divisionByZero s)

/-- R133, R137: where a DIV or MOD by zero stands at PC, the step does nothing but take the fault. -/
theorem eq_takeFault_of_dividesByZero {i : Instr} {s t : State} (h : step s = .next t) (hf : fetchInstr s = .ok i)
    (hdiv : DividesByZero i s) : t = takeFault .divisionByZero s := by
  rw [step_fetched (step_inv h).1 hf, exec_of_dividesByZero hdiv, Host.Outcome.next.injEq] at h
  exact h.symm

/-- Settles O22: the step ends in DivisionByZero exactly by taking that fault for a DIV or MOD by zero; a fault keeps the
registers, and a faulted machine has no step. -/
theorem divisionByZeroExactlyFromDivAndMod : Obligations.DivisionByZeroExactlyFromDivAndMod := by
  intro s t h
  refine ⟨⟨dividesByZero_of_step h, ?_⟩, fun ht => ⟨?_, step_ne_next_of_faulted ht⟩⟩
  · rintro ⟨i, hf, hdiv⟩
    rw [eq_takeFault_of_dividesByZero h hf hdiv, takeFault_run]
  · obtain ⟨i, hf, hdiv⟩ := dividesByZero_of_step h ht
    rw [eq_takeFault_of_dividesByZero h hf hdiv]
    exact State.reg_setRun s _

end Sys2Proof.Claims

/-! PROOFS of the statements about the encoding (spec/30_encoding.md R50 to R59). -/

namespace Sys2Proof

/-- R52, R59: the bytes of an instruction decode to it, whatever follows them. -/
theorem decode_encode_append (i : Instr) (rest : List Byte) : decode (encode i ++ rest) = .ok (i, rest) := by
  cases i <;> rfl

/-- How many operand bytes a shape still lacks. -/
def Shape.arity : Shape → Nat
  | .bare _ => 0
  | .one _ => 1
  | .two _ => 2

/-- R52: an instruction has the operand count of the shape that its word selects. The cases are the rows of the table. -/
theorem nops_fill_of_decodeWord {ir : Byte} {sh : Shape} (h : decodeWord ir = some sh) (a b : Byte) :
    (sh.fill a b).nops = sh.arity := by
  unfold decodeWord at h
  split at h
  next => cases h; rfl
  next => split at h <;> cases h <;> rfl

/-- R52: the operand bytes of an instruction are those that filled its shape, in their order. The cases are the rows of the
table. -/
theorem operands_fill_of_decodeWord {ir : Byte} {sh : Shape} (h : decodeWord ir = some sh) (a b : Byte) :
    (sh.fill a b).operands = [a, b].take sh.arity := by
  unfold decodeWord at h
  split at h
  next => cases h; rfl
  next => split at h <;> cases h <;> rfl

/-- R58: the encoding of the instruction that a word and its operand bytes make. -/
theorem encode_fill_of_decodeWord {ir : Byte} {sh : Shape} (h : decodeWord ir = some sh) (a b : Byte) :
    encode (sh.fill a b) = ir :: [a, b].take sh.arity := by
  rw [encode, word_fill_of_decodeWord h, operands_fill_of_decodeWord h]

/-- R54: bytes that decode begin with the encoding of what they decode to. The cases are the shapes. -/
theorem eq_encode_append_of_decode {bytes : List Byte} {i : Instr} {rest : List Byte}
    (h : decode bytes = .ok (i, rest)) : bytes = encode i ++ rest := by
  unfold decode at h
  split at h
  next => cases h
  next ir tail =>
    split at h
    next => cases h
    next j _ hd =>
      cases h
      exact congrArg (· ++ rest) (encode_fill_of_decodeWord hd 0 0).symm
    next mk a _ hd =>
      cases h
      exact congrArg (· ++ rest) (encode_fill_of_decodeWord hd a 0).symm
    next mk a b _ hd =>
      cases h
      exact congrArg (· ++ rest) (encode_fill_of_decodeWord hd a b).symm
    next => cases h

end Sys2Proof

namespace Sys2Proof.Claims

open Sys2Proof.Machine

/-- Settles O2: the first direction row by row of the table, the second by the shape that the word selects. -/
theorem decodeAndEncodeAgree : Obligations.DecodeAndEncodeAgree :=
  ⟨decode_encode_append, fun _ _ _ => eq_encode_append_of_decode⟩

end Sys2Proof.Claims

/-! PROOFS of the statement that the instruction rules and the control signals are one machine (spec/44_loop_and_halt.md R121,
spec/60_exceptions.md R135, R136). `exec_eq_gate` says once, for every instruction and state, what a rule does: it takes the
fault that the table names, or makes the commit of the datapath. What a step changes follows from it, column by column of the
table of R121. -/

namespace Sys2Proof.Machine

/-- The table of fault conditions without its first row: what the rule of an instruction checks once its operand bytes are
read. -/
def ruleFaults (idle : Byte) (i : Instr) (s : State) : Option Cause :=
  if ∃ b ∈ i.regOperands, 7 < b.toNat then some .addressingError
  else if divides i ∧ busB idle i s = 0#8 then some .divisionByZero
  else if stackFault i s then some .addressingError
  else if pcFault i s then some .addressingError
  else none

theorem faultTable_eq_ruleFaults {idle : Byte} {i : Instr} {s : State}
    (h : s.pc.toNat + (signals i).operandBytes ≤ 255) : faultTable idle i s = ruleFaults idle i s :=
  if_neg (by omega)

section
variable {idle : Byte} {i : Instr} {s : State}

theorem ruleFaults_register (h : ∃ b ∈ i.regOperands, 7 < b.toNat) : ruleFaults idle i s = some .addressingError :=
  if_pos h

theorem ruleFaults_division (hregs : ∀ b ∈ i.regOperands, b.toNat ≤ 7) (hdiv : divides i = true)
    (hb : busB idle i s = 0#8) : ruleFaults idle i s = some .divisionByZero := by
  rw [ruleFaults, if_neg (by simpa using hregs), if_pos ⟨hdiv, hb⟩]

theorem ruleFaults_late (hdiv : divides i = true → busB idle i s ≠ 0#8) (h : stackFault i s = true ∨ pcFault i s = true) :
    ruleFaults idle i s = some .addressingError := by
  rw [ruleFaults, if_neg (not_and.mpr hdiv)]
  rcases h with h | h
  · rw [if_pos h, ite_self]
  · rw [if_pos h, ite_self, ite_self]

theorem ruleFaults_none_iff : ruleFaults idle i s = none ↔ (∀ b ∈ i.regOperands, b.toNat ≤ 7) ∧
    (divides i = true → busB idle i s ≠ 0#8) ∧ stackFault i s = false ∧ pcFault i s = false := by
  simp [ruleFaults, ite_eq_iff]

end

/-- The gated enables: the fault `c` where there is one, the datapath's commit otherwise. -/
def gate (idle : Byte) (i : Instr) (s : State) : Option Cause → State
  | some c => takeFault c s
  | none => datapath idle i s

/-- The rule behind each instruction: every arm of `exec` settles one. -/
def rule : Instr → State → Except Raise State
  | .add a b => binaryOp aluAdd a b
  | .sub a b => binaryOp aluSub a b
  | .mul a b => binaryOp aluMul a b
  | .div a b => divisionOp aluDiv a b
  | .mod a b => divisionOp aluMod a b
  | .inc a => unaryOp aluInc a
  | .dec a => unaryOp aluDec a
  | .cmp a b => compareOp a b
  | .and a b => binaryOp aluAnd a b
  | .not a => unaryOp aluNot a
  | .or a b => binaryOp aluOr a b
  | .xor a b => binaryOp aluXor a b
  | .shl a b => binaryOp aluShl a b
  | .shr a b => binaryOp aluShr a b
  | .call a => callOp a
  | .ret => retOp
  | .jmp a => jumpOp a
  | .jeq a => condJump condEq a
  | .jne a => condJump condNe a
  | .jgt a => condJump condGt a
  | .jlt a => condJump condLt a
  | .jle a => condJump condLe a
  | .jge a => condJump condGe a
  | .nop => nopOp
  | .hlt => fun s => .ok (s.setRun .halted)
  | .ldi a imm => ldiOp a imm
  | .push a => pushOp a
  | .pop a => popOp a
  | .prn a => prnOp a

theorem exec_eq_settle_rule (i : Instr) (s : State) : exec i s = settle s (rule i s) := by
  cases i <;> rfl

/-- A byte that names a register addresses that register's port. -/
theorem eq_ofNat_of_eq_regByte {a : Byte} {r : Fin 8} (h : a = regByte r) : r = Fin.ofNat 8 a.toNat := by
  rw [h, fin_ofNat_regByte]

/-- R94 to R100: a conditional jump that completes goes to the port's value or past itself, by its condition, and had no PC
fault. -/
theorem condJump_commit {c : Byte → Bool} {a : Byte} {s t : State} (h : condJump c a s = .ok t) :
    (!c s.fl && decide (255 < s.pc.toNat + 2)) = false ∧
      t = s.setPc (if c s.fl then s.port a else s.pc + 2#8) := by
  obtain ⟨ra, rfl, ⟨hc, rfl⟩ | ⟨hc, hpc, rfl⟩⟩ := condJump_inv h
  · simp [hc]
  · simp [hc, show s.pc.toNat ≤ 253 by omega]

/-- R121: a rule that commits had no fault in its row, and commits what the datapath does. The cases are the shared meanings. -/
theorem rule_commit {i : Instr} {s t : State} (idle : Byte) (hregs : ∀ b ∈ i.regOperands, b.toNat ≤ 7)
    (h : rule i s = .ok t) : ruleFaults idle i s = none ∧ t = datapath idle i s := by
  rw [ruleFaults_none_iff]
  cases i with
  | add | sub | mul | and | or | xor | shl | shr =>
    obtain ⟨ra, rb, ha, hb, hpc, rfl⟩ := binaryOp_inv h
    cases eq_ofNat_of_eq_regByte ha
    cases eq_ofNat_of_eq_regByte hb
    exact ⟨⟨hregs, nofun, rfl, decide_eq_false (by omega)⟩, rfl⟩
  | div | mod =>
    obtain ⟨ra, rb, ha, hb, hz, hpc, rfl⟩ := divisionOp_inv h
    cases eq_ofNat_of_eq_regByte ha
    cases eq_ofNat_of_eq_regByte hb
    exact ⟨⟨hregs, fun _ => hz, rfl, decide_eq_false (by omega)⟩, rfl⟩
  | inc | dec | not =>
    obtain ⟨ra, ha, hpc, rfl⟩ := unaryOp_inv h
    cases eq_ofNat_of_eq_regByte ha
    exact ⟨⟨hregs, nofun, rfl, decide_eq_false (by omega)⟩, rfl⟩
  | cmp =>
    obtain ⟨ra, rb, ha, hb, hpc, rfl⟩ := compareOp_inv h
    cases eq_ofNat_of_eq_regByte ha
    cases eq_ofNat_of_eq_regByte hb
    exact ⟨⟨hregs, nofun, rfl, decide_eq_false (by omega)⟩, rfl⟩
  | jeq | jne | jgt | jlt | jle | jge =>
    obtain ⟨hpc, rfl⟩ := condJump_commit h
    exact ⟨⟨hregs, nofun, rfl, hpc⟩, rfl⟩
  | call =>
    obtain ⟨ra, ha, hsp, hpc, rfl⟩ := callOp_inv h
    cases eq_ofNat_of_eq_regByte ha
    exact ⟨⟨hregs, nofun, decide_eq_false hsp, decide_eq_false (by omega)⟩, rfl⟩
  | ret =>
    obtain ⟨hsp, rfl⟩ := retOp_inv h
    exact ⟨⟨hregs, nofun, decide_eq_false hsp, rfl⟩, rfl⟩
  | jmp =>
    obtain ⟨ra, ha, rfl⟩ := jumpOp_inv h
    cases eq_ofNat_of_eq_regByte ha
    exact ⟨⟨hregs, nofun, rfl, rfl⟩, rfl⟩
  | nop =>
    obtain ⟨hpc, rfl⟩ := nopOp_inv h
    exact ⟨⟨hregs, nofun, rfl, decide_eq_false (by omega)⟩, rfl⟩
  | hlt =>
    cases h
    exact ⟨⟨hregs, nofun, rfl, rfl⟩, rfl⟩
  | ldi =>
    obtain ⟨ra, ha, hpc, rfl⟩ := ldiOp_inv h
    cases eq_ofNat_of_eq_regByte ha
    exact ⟨⟨hregs, nofun, rfl, decide_eq_false (by omega)⟩, rfl⟩
  | push =>
    obtain ⟨ra, ha, hsp, hpc, rfl⟩ := pushOp_inv h
    cases eq_ofNat_of_eq_regByte ha
    exact ⟨⟨hregs, nofun, decide_eq_false hsp, decide_eq_false (by omega)⟩, rfl⟩
  | pop =>
    obtain ⟨ra, ha, hsp, hpc, rfl⟩ := popOp_inv h
    cases eq_ofNat_of_eq_regByte ha
    exact ⟨⟨hregs, nofun, decide_eq_false hsp, decide_eq_false (by omega)⟩, rfl⟩
  | prn =>
    obtain ⟨ra, ha, hpc, rfl⟩ := prnOp_inv h
    cases eq_ofNat_of_eq_regByte ha
    exact ⟨⟨hregs, nofun, rfl, decide_eq_false (by omega)⟩, rfl⟩

/-- R90: a jump that is not taken has the PC fault of its successor address. -/
theorem notTaken_pcFault {c : Byte → Bool} {s : State} (hc : c s.fl = false) (hpc : 255 < s.pc.toNat + 2) :
    (!c s.fl && decide (255 < s.pc.toNat + 2)) = true := by
  simp [hc, hpc]

/-- R135, R136: a rule that raises raises what its row names. The cases are the shared meanings, within each the situations of
R132 and R133. -/
theorem rule_raises {i : Instr} {s : State} {e : Raise} (idle : Byte) (hregs : ∀ b ∈ i.regOperands, b.toNat ≤ 7)
    (h : rule i s = .error e) : ruleFaults idle i s = some e.cause := by
  cases i with
  | add | sub | mul | and | or | xor | shl | shr =>
    rcases binaryOp_raises h with ⟨rfl, hab⟩ | ⟨rfl, _, _, hpc⟩
    · exact ruleFaults_register (by simpa [Instr.regOperands] using hab)
    · exact ruleFaults_late nofun (.inr (decide_eq_true hpc))
  | div | mod =>
    rcases divisionOp_raises h with ⟨rfl, hab⟩ | ⟨ra, rb, _, hb, hcase⟩
    · exact ruleFaults_register (by simpa [Instr.regOperands] using hab)
    · cases eq_ofNat_of_eq_regByte hb
      rcases hcase with ⟨rfl, hz⟩ | ⟨rfl, hz, hpc⟩
      · exact ruleFaults_division hregs rfl hz
      · exact ruleFaults_late (fun _ => hz) (.inr (decide_eq_true hpc))
  | cmp =>
    rcases compareOp_raises h with ⟨rfl, hab⟩ | ⟨rfl, _, _, hpc⟩
    · exact ruleFaults_register (by simpa [Instr.regOperands] using hab)
    · exact ruleFaults_late nofun (.inr (decide_eq_true hpc))
  | inc | dec | not =>
    rcases unaryOp_raises h with ⟨rfl, ha⟩ | ⟨rfl, _, hpc⟩
    · exact ruleFaults_register ⟨_, List.mem_singleton_self _, ha⟩
    · exact ruleFaults_late nofun (.inr (decide_eq_true hpc))
  | prn =>
    rcases prnOp_raises h with ⟨rfl, ha⟩ | ⟨rfl, _, hpc⟩
    · exact ruleFaults_register ⟨_, List.mem_singleton_self _, ha⟩
    · exact ruleFaults_late nofun (.inr (decide_eq_true hpc))
  | ldi =>
    rcases ldiOp_raises h with ⟨rfl, ha⟩ | ⟨rfl, _, hpc⟩
    · exact ruleFaults_register ⟨_, List.mem_singleton_self _, ha⟩
    · exact ruleFaults_late nofun (.inr (decide_eq_true hpc))
  | jeq | jne | jgt | jlt | jle | jge =>
    rcases condJump_raises h with ⟨rfl, ha⟩ | ⟨rfl, _, hc, hpc⟩
    · exact ruleFaults_register ⟨_, List.mem_singleton_self _, ha⟩
    · have hfault := notTaken_pcFault hc hpc
      exact ruleFaults_late nofun (.inr hfault)
  | call =>
    rcases callOp_raises h with ⟨rfl, ha⟩ | ⟨rfl, _, hsp⟩ | ⟨rfl, _, _, hpc⟩
    · exact ruleFaults_register ⟨_, List.mem_singleton_self _, ha⟩
    · exact ruleFaults_late nofun (.inl (decide_eq_true hsp))
    · exact ruleFaults_late nofun (.inr (decide_eq_true hpc))
  | push =>
    rcases pushOp_raises h with ⟨rfl, ha⟩ | ⟨rfl, _, hsp⟩ | ⟨rfl, _, _, hpc⟩
    · exact ruleFaults_register ⟨_, List.mem_singleton_self _, ha⟩
    · exact ruleFaults_late nofun (.inl (decide_eq_true hsp))
    · exact ruleFaults_late nofun (.inr (decide_eq_true hpc))
  | pop =>
    rcases popOp_raises h with ⟨rfl, ha⟩ | ⟨rfl, _, hsp⟩ | ⟨rfl, _, _, hpc⟩
    · exact ruleFaults_register ⟨_, List.mem_singleton_self _, ha⟩
    · exact ruleFaults_late nofun (.inl (decide_eq_true hsp))
    · exact ruleFaults_late nofun (.inr (decide_eq_true hpc))
  | ret =>
    obtain ⟨rfl, hsp⟩ := retOp_raises h
    exact ruleFaults_late nofun (.inl (decide_eq_true hsp))
  | jmp =>
    obtain ⟨rfl, ha⟩ := jumpOp_raises h
    exact ruleFaults_register ⟨_, List.mem_singleton_self _, ha⟩
  | nop =>
    obtain ⟨rfl, hpc⟩ := nopOp_raises h
    exact ruleFaults_late nofun (.inr (decide_eq_true hpc))
  | hlt => cases h

/-- R121, R135, R136: every instruction, in every state, does what its rows of the two tables say. -/
theorem exec_eq_gate (idle : Byte) (i : Instr) (s : State) : exec i s = .next (gate idle i s (ruleFaults idle i s)) := by
  by_cases hreg : ∃ b ∈ i.regOperands, 7 < b.toNat
  · rw [exec_registerAbove hreg, ruleFaults_register hreg, gate]
  have hregs : ∀ b ∈ i.regOperands, b.toNat ≤ 7 := by simpa using hreg
  rw [exec_eq_settle_rule]
  cases hr : rule i s with
  | ok t =>
    obtain ⟨hnone, rfl⟩ := rule_commit idle hregs hr
    rw [hnone, settle_ok, gate]
  | error e => rw [rule_raises idle hregs hr, settle_error, gate]

/-- R59, R115: the step of the hardware view at a word of the table: the operand bytes, then the two tables. -/
theorem hardwareStep_eq_gate {idle : Byte} {s : State} {sh : Shape} (hd : decodeWord (s.byte s.pc.toNat) = some sh) :
    hardwareStep idle s = gate idle (sh.fill (s.byte (s.pc.toNat + 1)) (s.byte (s.pc.toNat + 2))) s
      (faultTable idle (sh.fill (s.byte (s.pc.toNat + 1)) (s.byte (s.pc.toNat + 2))) s) := by
  rw [hardwareStep, hd]
  dsimp only
  cases faultTable idle (sh.fill (s.byte (s.pc.toNat + 1)) (s.byte (s.pc.toNat + 2))) s <;> rfl

/-- R121: the operand column is the operand count. -/
theorem signals_operandBytes (i : Instr) : (signals i).operandBytes = i.nops := by
  cases i <;> rfl

/-- R54: fetch at a word of the table: the operand bytes of its format, all at addresses up to 255. The cases are the shapes. -/
theorem fetchInstr_of_decodeWord {s : State} {sh : Shape} (hd : decodeWord (s.byte s.pc.toNat) = some sh) :
    fetchInstr s = if s.pc.toNat + sh.arity ≤ 255
      then .ok (sh.fill (s.byte (s.pc.toNat + 1)) (s.byte (s.pc.toNat + 2))) else .error .memAddress := by
  rw [fetchInstr_eq, hd]
  cases sh with
  | bare => exact (if_pos (by have := s.pc.isLt; simp only [Shape.arity]; omega)).symm
  | one | two => rfl

end Sys2Proof.Machine

namespace Sys2Proof.Claims

open Sys2Proof.Machine

/-- Settles O52: at a reserved word both take the fault; at a word of the table the operand addresses are the first row of the
table of faults, and the rest is `exec_eq_gate`. -/
theorem stepIsTheStepOfTheControlSignals : Obligations.StepIsTheStepOfTheControlSignals := by
  intro idle s hrun
  cases hd : decodeWord (s.byte s.pc.toNat) with
  | none => rw [step_fetchFault hrun (fetchInstr_reserved hd), hardwareStep, hd, Raise.cause]
  | some sh =>
    rw [hardwareStep_eq_gate hd]
    have hfetch := fetchInstr_of_decodeWord hd
    have hops := (signals_operandBytes _).trans
      (nops_fill_of_decodeWord hd (s.byte (s.pc.toNat + 1)) (s.byte (s.pc.toNat + 2)))
    by_cases hfit : s.pc.toNat + sh.arity ≤ 255
    · rw [if_pos hfit] at hfetch
      rw [step_fetched hrun hfetch, exec_eq_gate idle, faultTable_eq_ruleFaults (by omega)]
    · rw [if_neg hfit] at hfetch
      rw [step_fetchFault hrun hfetch, faultTable_operand (by omega), gate, Raise.cause]

end Sys2Proof.Claims

/-! PROOFS of the statements about the words of the table and about fetch (spec/30_encoding.md R50 to R59,
spec/44_loop_and_halt.md R115). -/

namespace Sys2Proof

/-! R50, R51, R56, R57: what the fields of an instruction's word say of it, row by row of the table. -/

theorem nops_eq_wordFields (i : Instr) : i.nops = (wordFields i.word).nops := by
  cases i <;> simp [Instr.nops, Instr.word, wordFields]

theorem length_encode (i : Instr) : (encode i).length = (wordFields i.word).nops + 1 := by
  rw [← nops_eq_wordFields]
  cases i <;> rfl

theorem unit_eq_loop_iff (i : Instr) : i.unit = .loop ↔ i.word = 0x01#8 := by
  cases i <;> simp [Instr.unit, Instr.word]

theorem unit_eq_wordCategory {i : Instr} (h : i.unit ≠ .loop) : i.unit = wordCategory i.word := by
  cases i with
  | hlt => exact absurd rfl h
  | _ => simp [Instr.unit, Instr.word, wordCategory, wordFields]

end Sys2Proof

namespace Sys2Proof.Claims

open Sys2Proof.Machine

/-- R57, R58: the opcode of an instruction's word selects the instruction among those of its unit, and its operands are the bytes
after the word. The cases are the formats of R52. -/
theorem operationOf_word {i : Instr} {a b : Byte} {rest rest' : List Byte} (hi : i.unit ≠ .loop)
    (h : a :: b :: rest = i.operands ++ rest') :
    operationOf a b (wordCategory i.word) (wordFields i.word).opcode = some i := by
  cases i with
  | hlt => exact absurd rfl hi
  | ret | nop => simp [operationOf, wordCategory, wordFields, Instr.word]
  | inc | dec | not | call | jmp | jeq | jne | jgt | jlt | jle | jge | push | pop | prn =>
    cases h
    simp [operationOf, wordCategory, wordFields, Instr.word]
  | add | sub | mul | div | mod | cmp | and | or | xor | shl | shr | ldi =>
    cases h
    simp [operationOf, wordCategory, wordFields, Instr.word]

/-- R58, R59: a finite fact about the 256 words. -/
theorem decodeWord_isSome_iff : ∀ ir : Byte, (decodeWord ir).isSome = true ↔ ir.toNat ∈ canonicalWords := by
  decide

/-- R56, R57, R59: a finite fact about the 256 words. -/
theorem decodeWord_isSome_iff_fields : ∀ ir : Byte, ir ≠ 0x01#8 →
    ((decodeWord ir).isSome = true ↔
      ((wordFields ir).isAlu = true ∧ (wordFields ir).isPcm = false ∧
          ((wordFields ir).opcode, (wordFields ir).nops) ∈ aluOpcodes) ∨
        ((wordFields ir).isAlu = false ∧ (wordFields ir).isPcm = true ∧
          ((wordFields ir).opcode, (wordFields ir).nops) ∈ pcmOpcodes) ∨
        ((wordFields ir).isAlu = false ∧ (wordFields ir).isPcm = false ∧
          ((wordFields ir).opcode, (wordFields ir).nops) ∈ miscOpcodes)) := by
  decide

/-- Settles O1: each sequence is the encoding of its instruction. -/
theorem wordsOfEveryFamilyDecode : Obligations.WordsOfEveryFamilyDecode :=
  ⟨decode_encode_append (.sub 3#8 4#8) [], decode_encode_append (.not 7#8) [], decode_encode_append (.cmp 0#8 1#8) [],
    decode_encode_append (.call 2#8) [], decode_encode_append .ret [], decode_encode_append (.jge 5#8) [],
    decode_encode_append (.ldi 6#8 200#8) [], decode_encode_append (.push 1#8) [], decode_encode_append .hlt []⟩

/-- Settles O3. -/
theorem exactlyTheTwentyNineWordsDecode : Obligations.ExactlyTheTwentyNineWordsDecode :=
  ⟨rfl, by decide, decodeWord_isSome_iff⟩

/-- Settles O4: bytes that decode are the encoding of the decoded instruction (O2), and the fields of its word select it. -/
theorem wordFieldsSelectTheInstruction : Obligations.WordFieldsSelectTheInstruction := by
  refine ⟨fun i => ⟨length_encode i, nops_eq_wordFields i, unit_eq_loop_iff i, unit_eq_wordCategory⟩,
    decodeWord_isSome_iff_fields, fun ir a b rest rest' i hir hdec => ?_, decode_encode_append .hlt⟩
  obtain ⟨rfl, hops⟩ := List.cons.inj (eq_encode_append_of_decode hdec)
  exact operationOf_word (mt (unit_eq_loop_iff i).mp hir) hops

end Sys2Proof.Claims

namespace Sys2Proof.Machine

/-- R54: fetch raises where the word at PC is an instruction's and an operand byte of it would lie above 255. -/
theorem fetchInstr_operandBeyond {s : State} {i : Instr} (hw : s.byte s.pc.toNat = i.word)
    (h : 255 < s.pc.toNat + i.nops) : fetchInstr s = .error .memAddress := by
  obtain ⟨sh, hd, hi⟩ := decodeWord_word i
  have hn : i.nops = sh.arity := by
    rw [hi, nops_fill_of_decodeWord hd]
  rw [fetchInstr_of_decodeWord (hw ▸ hd), if_neg (by omega)]

end Sys2Proof.Machine

namespace Sys2Proof.Claims

open Sys2Proof.Machine

/-- The bytes after the word at PC: two, one or none, as the top of memory allows. -/
def operandBytesAtPc (s : State) : List Byte :=
  if s.pc.toNat + 2 ≤ 255 then [s.byte (s.pc.toNat + 1), s.byte (s.pc.toNat + 2)]
  else if s.pc.toNat + 1 ≤ 255 then [s.byte (s.pc.toNat + 1)] else []

theorem bytesAtPc_eq (s : State) : bytesAtPc s = s.byte s.pc.toNat :: operandBytesAtPc s := by
  have := s.pc.isLt
  rcases (by omega : s.pc.toNat = 255 ∨ s.pc.toNat = 254 ∨ s.pc.toNat ≤ 253) with h | h | h
  · simp [bytesAtPc, operandBytesAtPc, maxLength, List.range_succ, h]
  · simp [bytesAtPc, operandBytesAtPc, maxLength, List.range_succ, h]
  · simp [bytesAtPc, operandBytesAtPc, maxLength, List.range_succ, h, show s.pc.toNat < 255 by omega,
      show s.pc.toNat ≤ 255 by omega]

theorem operandBytesAtPc_one {s : State} {a : Byte} {rest : List Byte} (h : operandBytesAtPc s = a :: rest) :
    s.pc.toNat + 1 ≤ 255 ∧ s.byte (s.pc.toNat + 1) = a := by
  unfold operandBytesAtPc at h
  split at h
  next h2 => exact ⟨by omega, (List.cons.inj h).1⟩
  next =>
    split at h
    next h1 => exact ⟨h1, (List.cons.inj h).1⟩
    next => cases h

theorem operandBytesAtPc_two {s : State} {a b : Byte} {rest : List Byte} (h : operandBytesAtPc s = a :: b :: rest) :
    s.pc.toNat + 2 ≤ 255 ∧ s.byte (s.pc.toNat + 1) = a ∧ s.byte (s.pc.toNat + 2) = b := by
  unfold operandBytesAtPc at h
  split at h
  next h2 =>
    cases h
    exact ⟨h2, rfl, rfl⟩
  next => split at h <;> cases h

/-- R54: what the bytes at PC decode to is fetched. The cases are the formats of R52. -/
theorem fetchInstr_of_decode {s : State} {i : Instr} {rest : List Byte} (h : decode (bytesAtPc s) = .ok (i, rest)) :
    fetchInstr s = .ok i := by
  have hbytes := eq_encode_append_of_decode h
  rw [bytesAtPc_eq] at hbytes
  obtain ⟨hw, hops⟩ := List.cons.inj hbytes
  rw [fetchInstr_eq, hw]
  cases i with
  | ret | nop | hlt => rfl
  | inc | dec | not | call | jmp | jeq | jne | jgt | jlt | jle | jge | push | pop | prn =>
    obtain ⟨hfit, rfl⟩ := operandBytesAtPc_one hops
    exact if_pos hfit
  | add | sub | mul | div | mod | cmp | and | or | xor | shl | shr | ldi =>
    obtain ⟨hfit, rfl, rfl⟩ := operandBytesAtPc_two hops
    exact if_pos hfit

/-- Settles O5. -/
theorem stepRunsTheDecodedInstruction : Obligations.StepRunsTheDecodedInstruction :=
  fun _ _ _ hrun hdec => step_fetched hrun (fetchInstr_of_decode hdec)

/-- R59: a word outside the table is reserved. -/
theorem decodeWord_eq_none {ir : Byte} (h : ir.toNat ∉ canonicalWords) : decodeWord ir = none := by
  rwa [← Option.not_isSome_iff_eq_none, decodeWord_isSome_iff]

/-- R131, R137: the step at a reserved word. -/
theorem step_reservedWord {s : State} (hrun : s.run = .running) (h : (s.byte s.pc.toNat).toNat ∉ canonicalWords) :
    step s = .next (takeFault .unsupportedOperation s) :=
  step_fetchFault hrun (fetchInstr_reserved (decodeWord_eq_none h))

/-- Settles O6. -/
theorem reservedWordRaisesUnsupportedOperation : Obligations.ReservedWordRaisesUnsupportedOperation :=
  fun _ hrun hw => step_reservedWord hrun hw

/-- Settles O7. -/
theorem operandBeyondMemoryRaisesAddressingError : Obligations.OperandBeyondMemoryRaisesAddressingError :=
  fun _ _ hrun hw h => step_fetchFault hrun (fetchInstr_operandBeyond hw h)

/-- Settles O8: `step` reads RUN first. -/
theorem stoppedMachineHasNoStep : Obligations.StoppedMachineHasNoStep :=
  fun s => ⟨fun h => by rw [step, h], fun c h => by rw [step, h], step_of_running⟩

end Sys2Proof.Claims

/-! PROOFS of the statements about every instruction and every step: the invariant (spec/10_state.md R18), precise faults
(spec/60_exceptions.md R137), the PC faults (R132) and the order of the checks (R136). Each reads its columns of
`exec_eq_gate`. -/

namespace Sys2Proof.Machine

/-- The two things an instruction can do: take a fault, or, without a fault in its row, make its commit. -/
theorem exec_cases {i : Instr} {s t : State} (h : exec i s = .next t) :
    (∃ c, t = takeFault c s) ∨ (ruleFaults 0#8 i s = none ∧ t = datapath 0#8 i s) := by
  rw [exec_eq_gate 0#8, Host.Outcome.next.injEq] at h
  subst h
  cases hf : ruleFaults 0#8 i s with
  | some c => exact .inl ⟨c, rfl⟩
  | none => exact .inr ⟨rfl, rfl⟩

/-- The two things a step can do: take a fault, or make the commit of the fetched instruction. -/
theorem step_cases {s t : State} (h : step s = .next t) :
    (∃ c, t = takeFault c s) ∨
      ∃ i, fetchInstr s = .ok i ∧ ruleFaults 0#8 i s = none ∧ t = datapath 0#8 i s := by
  obtain ⟨_, ⟨i, hf, hexec⟩ | ⟨e, _, rfl⟩⟩ := step_inv h
  · rcases exec_cases hexec with hfault | hcommit
    · exact .inl hfault
    · exact .inr ⟨i, hf, hcommit⟩
  · exact .inl ⟨e.cause, rfl⟩

/-! The columns of the commit. -/

/-- Column `halt`. -/
theorem datapath_run (idle : Byte) (i : Instr) (s : State) :
    (datapath idle i s).run = if (signals i).halt then .halted else s.run := rfl

/-- Column `fl_we`. -/
theorem datapath_fl (idle : Byte) (i : Instr) (s : State) :
    (datapath idle i s).fl = if (signals i).flWe then compareFlags (busA idle i s) (busB idle i s) else s.fl := rfl

/-- Column `mem_we`: memory is kept, or one byte is stored at `sp - 1`. -/
theorem datapath_mem (idle : Byte) (i : Instr) (s : State) :
    (datapath idle i s).mem = s.mem ∨ ∃ v, (datapath idle i s).mem = s.mem.poke (s.sp.toNat - 1) v := by
  unfold datapath commit
  dsimp only
  split
  next => exact .inl rfl
  next => exact .inr ⟨_, rfl⟩
  next => exact .inr ⟨_, rfl⟩

/-- Column `pc_sel`, `SEQn`: without a PC fault the successor address is a plain sum. -/
theorem pcFault_seq {i : Instr} {n : Nat} (h : (signals i).pcSel = .seq n) (s : State) :
    pcFault i s = decide (255 < s.pc.toNat + n) := by
  cases i <;> cases h <;> rfl

/-- R15, R57: the ALU and MISC instructions are those that only step past themselves. -/
theorem pcSel_of_unit {i : Instr} (h : i.unit = .alu ∨ i.unit = .misc) : (signals i).pcSel = .seq (i.nops + 1) := by
  cases i with
  | call | ret | jmp | jeq | jne | jgt | jlt | jle | jge | hlt => simp [Instr.unit] at h
  | _ => rfl

/-! The invariant. -/

/-- R78: what CMP writes is a legal FL. -/
theorem compareFlags_legal (x y : Byte) : flLegal (compareFlags x y) = true := by
  unfold compareFlags
  split
  · rfl
  · split <;> rfl

theorem inv_iff (s : State) : s.inv = true ↔ s.mem.wf = true ∧ flLegal s.fl = true := by
  rw [State.inv, Bool.and_eq_true]

theorem takeFault_inv {c : Cause} {s : State} (h : s.inv = true) : (takeFault c s).inv = true := h

theorem datapath_inv {idle : Byte} {i : Instr} {s : State} (h : s.inv = true) : (datapath idle i s).inv = true := by
  rw [inv_iff] at h ⊢
  obtain ⟨hmem, hfl⟩ := h
  constructor
  · rcases datapath_mem idle i s with hkept | ⟨v, hstore⟩
    · rw [hkept, hmem]
    · rw [hstore]
      exact Memory.poke_wf v hmem (by have := s.sp.isLt; omega)
  · rw [datapath_fl]
    split
    · exact compareFlags_legal _ _
    · exact hfl

end Sys2Proof.Machine

namespace Sys2Proof.Claims

open Sys2Proof.Machine

/-- Settles O11: a fault changes RUN only; a commit stores at an address below 256 and writes to FL what CMP writes. -/
theorem everyStepKeepsTheInvariant : Obligations.EveryStepKeepsTheInvariant := by
  intro s t hinv hstep
  rcases step_cases hstep with ⟨c, rfl⟩ | ⟨i, _, _, rfl⟩
  · exact takeFault_inv hinv
  · exact datapath_inv hinv

/-- Settles O45: the commit of a step never leaves RUN faulted, so a faulted state is the one of `takeFault`. -/
theorem faultsArePrecise : Obligations.FaultsArePrecise := by
  intro s t c hstep ht
  obtain ⟨hrun, _⟩ := step_inv hstep
  rcases step_cases hstep with ⟨c', rfl⟩ | ⟨i, _, _, rfl⟩
  · rw [takeFault_run, RunState.faulted.injEq] at ht
    rw [ht, takeFault_eq]
  · rw [datapath_run, hrun] at ht
    split at ht <;> cases ht

end Sys2Proof.Claims

namespace Sys2Proof.Machine

/-- Every byte up to 7 names the register that it addresses. -/
theorem eq_regByte_ofNat {b : Byte} (h : b.toNat ≤ 7) : b = regByte (Fin.ofNat 8 b.toNat) := by
  have hb := eq_regByte (Nat.lt_succ_of_le h)
  rwa [eq_ofNat_of_eq_regByte hb] at hb

end Sys2Proof.Machine

namespace Sys2Proof.Claims

open Sys2Proof.Machine

/-- R133: the division row of the table is `DividesByZero`. -/
theorem dividesByZero_of_busB {idle : Byte} {i : Instr} {s : State} (hregs : ∀ b ∈ i.regOperands, b.toNat ≤ 7)
    (hdiv : divides i = true) (hz : busB idle i s = 0#8) : DividesByZero i s := by
  cases i with
  | div a b =>
    have ha := eq_regByte_ofNat (hregs a (by simp [Instr.regOperands]))
    have hb := eq_regByte_ofNat (hregs b (by simp [Instr.regOperands]))
    exact ⟨_, _, .inl (congrArg₂ Instr.div ha hb), hz⟩
  | mod a b =>
    have ha := eq_regByte_ofNat (hregs a (by simp [Instr.regOperands]))
    have hb := eq_regByte_ofNat (hregs b (by simp [Instr.regOperands]))
    exact ⟨_, _, .inr (congrArg₂ Instr.mod ha hb), hz⟩
  | _ => cases hdiv

/-- R135: a stack or PC fault of an instruction that does not divide by zero is an AddressingError, whatever its register bytes
are. -/
theorem exec_late {i : Instr} {s : State} (hdiv : ¬ DividesByZero i s) (h : stackFault i s = true ∨ pcFault i s = true) :
    exec i s = .next { s with run := .faulted .addressingError } := by
  by_cases hreg : ∃ b ∈ i.regOperands, 7 < b.toNat
  · exact exec_registerAbove hreg
  · have hregs : ∀ b ∈ i.regOperands, b.toNat ≤ 7 := by simpa using hreg
    rw [exec_eq_gate 0#8, ruleFaults_late (fun hd hz => hdiv (dividesByZero_of_busB hregs hd hz)) h, gate, takeFault_eq]

/-- Settles O44: each alternative is an instruction whose PC column evaluates the successor address. -/
theorem successorBeyondMemoryRaisesAddressingError : Obligations.SuccessorBeyondMemoryRaisesAddressingError := by
  intro i s hpc hdiv h
  refine exec_late hdiv (.inr ?_)
  rcases h with h | h | ⟨a, rfl⟩ | ⟨a, rfl, hc⟩ | ⟨a, rfl, hc⟩ | ⟨a, rfl, hc⟩ | ⟨a, rfl, hc⟩ | ⟨a, rfl, he, hc⟩ |
    ⟨a, rfl, he, hc⟩
  · rw [pcFault_seq (pcSel_of_unit (.inl h))]
    exact decide_eq_true hpc
  · rw [pcFault_seq (pcSel_of_unit (.inr h))]
    exact decide_eq_true hpc
  · exact decide_eq_true hpc
  · exact notTaken_pcFault (c := condEq) hc hpc
  · exact notTaken_pcFault (c := condNe) (congrArg Bool.not hc) hpc
  · exact notTaken_pcFault (c := condGt) hc hpc
  · exact notTaken_pcFault (c := condLt) hc hpc
  · exact notTaken_pcFault (c := condLe) (Bool.or_eq_false_iff.mpr ⟨he, hc⟩) hpc
  · exact notTaken_pcFault (c := condGe) (Bool.or_eq_false_iff.mpr ⟨he, hc⟩) hpc

theorem not_dividesByZero_of_divides {i : Instr} (h : divides i = false) (s : State) : ¬ DividesByZero i s := by
  rintro ⟨ra, rb, rfl | rfl, _⟩ <;> cases h

/-- Settles O43: the stack column of PUSH and CALL at `sp = 0`, of POP and RET at `sp = 255`. -/
theorem stackRangeFaults : Obligations.StackRangeFaults := by
  intro s ra
  refine ⟨fun hsp => ⟨exec_push_spZero ra hsp, exec_call_spZero ra hsp⟩, fun hsp => ⟨?_, ?_⟩⟩
  · exact exec_late (not_dividesByZero_of_divides rfl s) (.inl (decide_eq_true hsp))
  · exact exec_late (not_dividesByZero_of_divides rfl s) (.inl (decide_eq_true hsp))

/-- Settles O46: each case is the fault of the check that comes first. -/
theorem faultPriority : Obligations.FaultPriority := by
  intro s ra rb b hrun
  refine ⟨fun _ hw => ?_, fun _ hz => ⟨?_, ?_⟩, fun hb => ⟨?_, ?_⟩⟩
  · exact ⟨_, step_reservedWord hrun hw, takeFault_run _ s⟩
  · exact ⟨_, exec_of_dividesByZero ⟨ra, rb, .inl rfl, hz⟩, takeFault_run _ s⟩
  · exact ⟨_, exec_of_dividesByZero ⟨ra, rb, .inr rfl, hz⟩, takeFault_run _ s⟩
  · exact ⟨_, exec_registerAbove ⟨b, by simp [Instr.regOperands], hb⟩, takeFault_run _ s⟩
  · exact ⟨_, exec_registerAbove ⟨b, by simp [Instr.regOperands], hb⟩, takeFault_run _ s⟩

end Sys2Proof.Claims

/-! PROOFS of the statements about the ALU instructions (spec/41_alu.md). Each result is the ALU function of the operand
registers, each frame the one of its shared meaning. -/

namespace Sys2Proof.Machine

/-! The ALU functions, as numbers and bit by bit. -/

theorem aluAdd_toNat (x y : Byte) : (aluAdd x y).toNat = (x.toNat + y.toNat) % 256 := by
  rw [aluAdd_eq, BitVec.toNat_add]

theorem aluMul_toNat (x y : Byte) : (aluMul x y).toNat = (x.toNat * y.toNat) % 256 := by
  rw [aluMul_eq, BitVec.toNat_mul]

theorem aluInc_toNat (x : Byte) : (aluInc x).toNat = (x.toNat + 1) % 256 := by
  rw [aluInc_eq, BitVec.toNat_add]
  rfl

theorem aluNot_toNat (x : Byte) : (aluNot x).toNat = 255 - x.toNat := by
  rw [aluNot_eq, BitVec.toNat_not]

theorem aluNot_getLsbD (x : Byte) {k : Nat} (h : k < 8) : (aluNot x).getLsbD k = !x.getLsbD k := by
  rw [aluNot_eq, BitVec.getLsbD_not, decide_eq_true h, Bool.true_and]

/-- R83: an amount of 8 or more shifts every bit out at the top. -/
theorem aluShl_of_le {x y : Byte} (h : 8 ≤ y.toNat) : aluShl x y = 0#8 := by
  apply BitVec.eq_of_toNat_eq
  rw [aluShl_toNat]
  exact Nat.mod_eq_zero_of_dvd (Dvd.dvd.mul_left (pow_dvd_pow 2 h) x.toNat)

/-- R84: an amount of 8 or more shifts every bit out at the bottom. -/
theorem aluShr_of_le {x y : Byte} (h : 8 ≤ y.toNat) : aluShr x y = 0#8 := by
  apply BitVec.eq_of_toNat_eq
  rw [aluShr_toNat]
  exact Nat.div_eq_of_lt (x.isLt.trans_le (Nat.pow_le_pow_right Nat.two_pos h))

/-! R78: FL by the three outcomes of the comparison. -/

theorem compareFlags_eq {x y : Byte} (h : x.toNat = y.toNat) : compareFlags x y = 0b001#8 :=
  if_pos h

theorem compareFlags_gt {x y : Byte} (h : x.toNat > y.toNat) : compareFlags x y = 0b010#8 := by
  rw [compareFlags, if_neg (by omega), if_pos h]
  rfl

theorem compareFlags_lt {x y : Byte} (h : x.toNat < y.toNat) : compareFlags x y = 0b100#8 := by
  rw [compareFlags, if_neg (by omega), if_neg (by omega)]
  rfl

end Sys2Proof.Machine

namespace Sys2Proof.Claims

open Sys2Proof.Machine

/-- The frame of a rule that writes `x[r]` and steps past itself. -/
theorem writesOnlyReg_setReg {s : State} {n : Nat} (r : Fin 8) (v : Byte) (h : s.pc.toNat + n ≤ 255) :
    WritesOnlyReg r n s ((s.setReg r v).setPc (s.pc + BitVec.ofNat 8 n)) :=
  ⟨fun _ hq => State.reg_setReg_other s v hq, toNat_pc_add h, rfl, rfl, rfl, rfl, fun _ => rfl⟩

/-- R70: what the two-register rule completes with. -/
theorem binaryOp_completes {f : Byte → Byte → Byte} {s : State} (ra rb : Fin 8) (hpc : s.pc.toNat ≤ 252) :
    ∃ t, settle s (binaryOp f (regByte ra) (regByte rb) s) = .next t ∧ t.reg ra = f (s.reg ra) (s.reg rb) ∧
      WritesOnlyReg ra 3 s t :=
  ⟨_, congrArg (settle s) (binaryOp_ok ra rb (by omega)), State.reg_setReg_same s ra _, writesOnlyReg_setReg ra _ (by omega)⟩

/-- R74, R75: what the division rule completes with. -/
theorem divisionOp_completes {f : Byte → Byte → Byte} {s : State} (ra rb : Fin 8) (hpc : s.pc.toNat ≤ 252)
    (hb : s.reg rb ≠ 0#8) :
    ∃ t, settle s (divisionOp f (regByte ra) (regByte rb) s) = .next t ∧ t.reg ra = f (s.reg ra) (s.reg rb) ∧
      WritesOnlyReg ra 3 s t :=
  ⟨_, congrArg (settle s) (divisionOp_ok ra rb hb (by omega)), State.reg_setReg_same s ra _,
    writesOnlyReg_setReg ra _ (by omega)⟩

/-- R70: what the one-register rule completes with. -/
theorem unaryOp_completes {f : Byte → Byte} {s : State} (ra : Fin 8) (hpc : s.pc.toNat ≤ 253) :
    ∃ t, settle s (unaryOp f (regByte ra) s) = .next t ∧ t.reg ra = f (s.reg ra) ∧ WritesOnlyReg ra 2 s t :=
  ⟨_, congrArg (settle s) (unaryOp_ok ra (by omega)), State.reg_setReg_same s ra _, writesOnlyReg_setReg ra _ (by omega)⟩

/-- Settles O20. -/
theorem addSubMulResults : Obligations.AddSubMulResults := by
  intro s ra rb hpc
  refine ⟨?_, ?_, ?_⟩
  · obtain ⟨t, hexec, hreg, hframe⟩ := binaryOp_completes (f := aluAdd) ra rb hpc
    exact ⟨t, hexec, hreg ▸ aluAdd_toNat _ _, hframe⟩
  · obtain ⟨t, hexec, hreg, hframe⟩ := binaryOp_completes (f := aluSub) ra rb hpc
    exact ⟨t, hexec, hreg ▸ narrow_toInt_mod _, hframe⟩
  · obtain ⟨t, hexec, hreg, hframe⟩ := binaryOp_completes (f := aluMul) ra rb hpc
    exact ⟨t, hexec, hreg ▸ aluMul_toNat _ _, hframe⟩

/-- Settles O21: the division identity is the one of the natural numbers. -/
theorem divModResults : Obligations.DivModResults := by
  intro s ra rb hpc hb
  obtain ⟨t, hdiv, hq, htframe⟩ := divisionOp_completes (f := aluDiv) ra rb hpc hb
  obtain ⟨u, hmod, hr, huframe⟩ := divisionOp_completes (f := aluMod) ra rb hpc hb
  have hq' : (t.reg ra).toNat = (s.reg ra).toNat / (s.reg rb).toNat := hq ▸ aluDiv_toNat _ _
  have hr' : (u.reg ra).toNat = (s.reg ra).toNat % (s.reg rb).toNat := hr ▸ aluMod_toNat _ _
  refine ⟨t, u, hdiv, hmod, hq', hr', ?_, ?_, htframe, huframe⟩
  · rw [hq', hr', Nat.div_add_mod']
  · rw [hr']
    exact Nat.mod_lt _ (toNat_sub_one hb).2

/-- Settles O23. -/
theorem incDecResults : Obligations.IncDecResults := by
  intro s ra hpc
  constructor
  · obtain ⟨t, hexec, hreg, hframe⟩ := unaryOp_completes (f := aluInc) ra hpc
    exact ⟨t, hexec, hreg ▸ aluInc_toNat _, hframe⟩
  · obtain ⟨t, hexec, hreg, hframe⟩ := unaryOp_completes (f := aluDec) ra hpc
    exact ⟨t, hexec, hreg ▸ narrow_toInt_mod _, hframe⟩

/-- Settles O24. -/
theorem notInvertsEveryBit : Obligations.NotInvertsEveryBit := by
  intro s ra hpc
  obtain ⟨t, hexec, hreg, hframe⟩ := unaryOp_completes (f := aluNot) ra hpc
  exact ⟨t, hexec, hreg ▸ aluNot_toNat _, fun _ hk => hreg ▸ aluNot_getLsbD _ hk, hframe⟩

/-- Settles O25. -/
theorem andOrXorBits : Obligations.AndOrXorBits := by
  intro s ra rb hpc
  refine ⟨?_, ?_, ?_⟩
  · obtain ⟨t, hexec, hreg, hframe⟩ := binaryOp_completes (f := aluAnd) ra rb hpc
    exact ⟨t, hexec, fun _ => hreg ▸ BitVec.getLsbD_and, hframe⟩
  · obtain ⟨t, hexec, hreg, hframe⟩ := binaryOp_completes (f := aluOr) ra rb hpc
    exact ⟨t, hexec, fun _ => hreg ▸ BitVec.getLsbD_or, hframe⟩
  · obtain ⟨t, hexec, hreg, hframe⟩ := binaryOp_completes (f := aluXor) ra rb hpc
    exact ⟨t, hexec, fun _ => hreg ▸ BitVec.getLsbD_xor, hframe⟩

/-- Settles O26. -/
theorem shiftResults : Obligations.ShiftResults := by
  intro s ra rb hpc
  constructor
  · obtain ⟨t, hexec, hreg, hframe⟩ := binaryOp_completes (f := aluShl) ra rb hpc
    exact ⟨t, hexec, hreg ▸ aluShl_toNat _ _, fun h => hreg ▸ aluShl_of_le h, hframe⟩
  · obtain ⟨t, hexec, hreg, hframe⟩ := binaryOp_completes (f := aluShr) ra rb hpc
    exact ⟨t, hexec, hreg ▸ aluShr_toNat _ _, fun h => hreg ▸ aluShr_of_le h, hframe⟩

/-- Settles O27. -/
theorem cmpSetsExactlyOneFlag : Obligations.CmpSetsExactlyOneFlag := by
  intro s ra rb hpc
  have hfit : s.pc.toNat + 3 ≤ 255 := by omega
  exact ⟨_, congrArg (settle s) (compareOp_ok ra rb hfit), compareFlags_eq, compareFlags_gt, compareFlags_lt, fun _ => rfl,
    toNat_pc_add hfit, rfl, rfl, rfl, fun _ => rfl⟩

end Sys2Proof.Claims

/-! PROOFS of the statements about the jumps (spec/42_pcm.md R93 to R100), the stack (spec/20_memory.md R37, R38) and the
instructions that use it, the other MISC instructions (spec/43_misc.md) and HALT. -/

namespace Sys2Proof.Claims

open Sys2Proof.Machine

/-- The frame of a rule that sets PC and nothing else. -/
theorem writesOnlyPc_setPc (s : State) (v : Byte) : WritesOnlyPc s (s.setPc v) :=
  ⟨fun _ => rfl, rfl, rfl, rfl, rfl, fun _ => rfl⟩

/-- R94 to R99: a jump whose condition holds. -/
theorem condJump_completes_taken {c : Byte → Bool} {s : State} (ra : Fin 8) (h : c s.fl = true) :
    ∃ t, settle s (condJump c (regByte ra) s) = .next t ∧ t.pc = s.reg ra ∧ WritesOnlyPc s t :=
  ⟨_, congrArg (settle s) (condJump_taken ra h), rfl, writesOnlyPc_setPc s _⟩

/-- R90, R94 to R99: a jump whose condition does not hold. -/
theorem condJump_completes_notTaken {c : Byte → Bool} {s : State} (ra : Fin 8) (hpc : s.pc.toNat ≤ 253)
    (h : c s.fl = false) :
    ∃ t, settle s (condJump c (regByte ra) s) = .next t ∧ t.pc.toNat = s.pc.toNat + 2 ∧ WritesOnlyPc s t :=
  have hfit : s.pc.toNat + 2 ≤ 255 := by omega
  ⟨_, congrArg (settle s) (condJump_notTaken ra h hfit), toNat_pc_add hfit, writesOnlyPc_setPc s _⟩

/-- Settles O31. -/
theorem jmpGoesToTheRegister : Obligations.JmpGoesToTheRegister := fun s ra =>
  ⟨_, congrArg (settle s) (jumpOp_ok s ra), rfl, writesOnlyPc_setPc s _⟩

/-- Settles O32: each condition is the stated test of FL bits 0, 1 and 2. -/
theorem conditionalJumpTaken : Obligations.ConditionalJumpTaken := fun _ ra =>
  ⟨fun h => condJump_completes_taken (c := condEq) ra h,
    fun h => condJump_completes_taken (c := condNe) ra (congrArg Bool.not h),
    fun h => condJump_completes_taken (c := condGt) ra h,
    fun h => condJump_completes_taken (c := condLt) ra h,
    fun h => condJump_completes_taken (c := condLe) ra (Bool.or_eq_true_iff.mpr h),
    fun h => condJump_completes_taken (c := condGe) ra (Bool.or_eq_true_iff.mpr h)⟩

/-- Settles O33: each condition is the stated test of FL bits 0, 1 and 2. -/
theorem conditionalJumpNotTaken : Obligations.ConditionalJumpNotTaken := fun _ ra hpc =>
  ⟨fun h => condJump_completes_notTaken (c := condEq) ra hpc h,
    fun h => condJump_completes_notTaken (c := condNe) ra hpc (congrArg Bool.not h),
    fun h => condJump_completes_notTaken (c := condGt) ra hpc h,
    fun h => condJump_completes_notTaken (c := condLt) ra hpc h,
    fun he h => condJump_completes_notTaken (c := condLe) ra hpc (Bool.or_eq_false_iff.mpr ⟨he, h⟩),
    fun he h => condJump_completes_notTaken (c := condGe) ra hpc (Bool.or_eq_false_iff.mpr ⟨he, h⟩)⟩

/-- Settles O35. -/
theorem nopAdvancesPc : Obligations.NopAdvancesPc := fun s hpc =>
  have hfit : s.pc.toNat + 1 ≤ 255 := by omega
  ⟨_, congrArg (settle s) (nopOp_ok hfit), toNat_pc_add hfit, writesOnlyPc_setPc s _⟩

/-- Settles O36. -/
theorem ldiLoadsTheImmediate : Obligations.LdiLoadsTheImmediate := fun s ra imm hpc =>
  have hfit : s.pc.toNat + 3 ≤ 255 := by omega
  ⟨_, congrArg (settle s) (ldiOp_ok ra imm hfit), State.reg_setReg_same s ra imm, writesOnlyReg_setReg ra imm hfit⟩

/-- R21: one emitted byte is one more line. -/
theorem hostLines_emit (s : State) (v : Byte) : hostLines (s.emit v) = hostLines s ++ [toString v.toNat] := by
  rw [hostLines, State.emit_out, List.map_append, hostLines, List.map_singleton]

/-- Settles O40. -/
theorem prnEmitsTheRegister : Obligations.PrnEmitsTheRegister := fun s ra hpc =>
  have hfit : s.pc.toNat + 2 ≤ 255 := by omega
  ⟨_, congrArg (settle s) (prnOp_ok ra hfit), rfl, hostLines_emit s _, fun _ => rfl, toNat_pc_add hfit, rfl, rfl, rfl,
    fun _ => rfl⟩

/-- Settles O41. -/
theorem hltHaltsAndStays : Obligations.HltHaltsAndStays := fun _ =>
  ⟨_, rfl, rfl, fun _ => rfl, rfl, rfl, rfl, rfl, fun _ => rfl, rfl⟩

/-! The stack. -/

/-- R37: the state that a push of `v` leaves, whatever PC the instruction then sets. -/
theorem pushesByte_setByte {s : State} (v pc : Byte) (hwf : s.mem.wf = true) (hsp : s.sp ≠ 0#8) :
    PushesByte v s (((s.setSp (s.sp - 1#8)).setByte (s.sp.toNat - 1) v).setPc pc) := by
  obtain ⟨hnew, hpos⟩ := toNat_sub_one hsp
  refine ⟨?_, fun a ha => ?_, fun _ => rfl, rfl, rfl, rfl⟩
  · rw [State.setPc_sp, State.setByte_sp, State.setSp_sp, hnew]
    omega
  · have ha' : a = s.sp.toNat - 1 := by
      rw [pushAddr] at ha
      omega
    subst ha'
    refine ⟨?_, fun b hb => ?_⟩
    · rw [State.byte_setPc, State.byte_setByte_same (s := s.setSp (s.sp - 1#8)) _ v hwf]
    · rw [State.byte_setPc, State.byte_setByte_other _ v hb, State.byte_setSp]

/-- Settles O19. -/
theorem popChecksThenReads : Obligations.PopChecksThenReads := fun s =>
  ⟨fun hsp => ⟨.stackRange, popByte_error hsp, rfl⟩, fun hsp =>
    ⟨_, popByte_ok hsp, (toNat_add_one hsp).1, rfl, State.byte_setSp s _ _⟩⟩

/-- Settles O29. -/
theorem callPushesTheReturnAddress : Obligations.CallPushesTheReturnAddress := fun s ra hwf hsp hpc =>
  have hfit : s.pc.toNat + 2 ≤ 255 := by omega
  ⟨_, congrArg (settle s) (callOp_ok ra hsp hfit), rfl, pushesByte_setByte _ _ hwf hsp, toNat_pc_add hfit⟩

/-- Settles O30. -/
theorem retGoesToTheTopOfTheStack : Obligations.RetGoesToTheTopOfTheStack := fun _ hsp =>
  ⟨_, exec_ret_ok hsp, rfl, (toNat_add_one hsp).1, fun _ => rfl, rfl, rfl, rfl, fun _ => rfl⟩

/-- Settles O37. -/
theorem pushStoresTheRegister : Obligations.PushStoresTheRegister := fun s ra hwf hsp hpc =>
  have hfit : s.pc.toNat + 2 ≤ 255 := by omega
  ⟨_, congrArg (settle s) (pushOp_ok ra hsp hfit), pushesByte_setByte _ _ hwf hsp, toNat_pc_add hfit⟩

/-- Settles O38. -/
theorem popLoadsTheTopOfTheStack : Obligations.PopLoadsTheTopOfTheStack := fun s ra hsp hpc =>
  have hfit : s.pc.toNat + 2 ≤ 255 := by omega
  ⟨_, congrArg (settle s) (popOp_ok ra hsp hfit), State.reg_setReg_same (s.setSp (s.sp + 1#8)) ra _,
    fun _ hq => State.reg_setReg_other _ _ hq, (toNat_add_one hsp).1, toNat_pc_add hfit, rfl, rfl, rfl, fun _ => rfl⟩

/-- Settles O39: the POP (O38) reads the cell that the PUSH (O37) wrote, which is the one at the new SP. -/
theorem pushThenPopMovesTheByte : Obligations.PushThenPopMovesTheByte := by
  intro s ra rb hwf hsp hpc
  obtain ⟨t, hpush, ⟨htsp, htmem, htregs, htfl, htrun, htout⟩, htpc⟩ := pushStoresTheRegister s ra hwf hsp (by omega)
  have hroom : t.sp ≠ 255#8 := by
    intro h
    have h255 : t.sp.toNat = 255 := congrArg BitVec.toNat h
    have := s.sp.isLt
    omega
  obtain ⟨u, hpop, hureg, huregs, husp, hupc, hufl, hurun, huout, humem⟩ :=
    popLoadsTheTopOfTheStack t rb hroom (by omega)
  have hpushed : t.byte t.sp.toNat = s.reg ra := (htmem t.sp.toNat (by rw [pushAddr]; omega)).1
  refine ⟨t, u, hpush, hpop, hureg.trans hpushed, fun q hq => (huregs q hq).trans (htregs q), ?_, hufl.trans htfl,
    hurun.trans htrun, huout.trans htout, by omega, fun a ha => ⟨?_, fun b hb => ?_⟩⟩
  · exact BitVec.eq_of_toNat_eq (husp.trans htsp)
  · rw [humem a, (htmem a ha).1]
  · rw [humem b, (htmem a ha).2 b hb]

end Sys2Proof.Claims

/-! PROOFS of the statements about what a step changes: PC (spec/44_loop_and_halt.md R117), the units' state (R122), memory and SP
(spec/10_state.md R17). A fault changes RUN only; a commit is read column by column. -/

namespace Sys2Proof.Machine

/-- Column `reg we`: no register but the one that the operand byte `a` addresses is written. -/
theorem datapath_reg_other {idle : Byte} {i : Instr} {s : State} {r : Fin 8} (h : r ≠ Fin.ofNat 8 (operandA i).toNat) :
    (datapath idle i s).reg r = s.reg r := by
  unfold datapath commit
  dsimp only [State.reg]
  split
  next => rfl
  next => exact State.reg_setReg_other s _ h
  next => exact State.reg_setReg_other s _ h
  next => exact State.reg_setReg_other s _ h

/-- The register that a commit changes is the one that the operand byte `a` names. -/
theorem operandA_of_reg_changed {idle : Byte} {i : Instr} {s : State} {r : Fin 8} {a : Byte} (ha : operandA i = a)
    (hle : a.toNat ≤ 7) (h : (datapath idle i s).reg r ≠ s.reg r) : a = regByte r := by
  subst ha
  have hr : r = Fin.ofNat 8 (operandA i).toNat := by
    by_contra hr
    exact h (datapath_reg_other hr)
  rw [hr]
  exact eq_regByte_ofNat hle

/-- Columns `pc_sel`, `SEQn`: an instruction of the ALU or MISC that commits moves PC past itself. -/
theorem datapath_pc_seq {idle : Byte} {i : Instr} {s : State} (hu : i.unit = .alu ∨ i.unit = .misc)
    (hpc : pcFault i s = false) : (datapath idle i s).pc.toNat = s.pc.toNat + i.nops + 1 := by
  have hsel := pcSel_of_unit hu
  rw [pcFault_seq hsel, decide_eq_false_iff_not] at hpc
  have hcommit : (datapath idle i s).pc = s.pc + BitVec.ofNat 8 (i.nops + 1) := by
    rw [datapath, commit, hsel]
  rw [hcommit, toNat_pc_add (by omega), Nat.add_assoc]

/-- R121: the loop's one instruction halts. -/
theorem halt_of_unit {i : Instr} (h : i.unit = .loop) : (signals i).halt = true := by
  cases i with
  | hlt => rfl
  | _ => cases h

end Sys2Proof.Machine

namespace Sys2Proof.Claims

open Sys2Proof.Machine

/-- R95: a test for the absence of a flag is the test for the flag with its outcomes exchanged. -/
theorem ite_bnot (e : Bool) (x y : Byte) : (if (!e) = true then x else y) = if e = true then y else x := by
  cases e <;> rfl

/-- Columns `pc_sel` of the PCM: a commit sets PC to what the rule of the instruction says. -/
theorem datapath_pcmTarget {idle : Byte} {i : Instr} {s : State} (hu : i.unit = .pcm)
    (hregs : ∀ b ∈ i.regOperands, b.toNat ≤ 7) : pcmTarget i s (datapath idle i s).pc := by
  cases i with
  | ret => rfl
  | jne a =>
    exact ⟨_, eq_regByte_ofNat (hregs a (List.mem_singleton_self a)), ite_bnot _ _ _⟩
  | call a | jmp a | jeq a | jgt a | jlt a | jle a | jge a =>
    exact ⟨_, eq_regByte_ofNat (hregs a (List.mem_singleton_self a)), rfl⟩
  | _ => cases hu

/-- Settles O47: a step that goes on committed (a fault would have stopped it), and its PC is that of the instruction's row. -/
theorem pcIsUpdatedExactlyOnce : Obligations.PcIsUpdatedExactlyOnce := by
  intro s t hstep ht
  rcases step_cases hstep with ⟨c, rfl⟩ | ⟨i, hf, hnone, rfl⟩
  · rw [takeFault_run] at ht
    cases ht
  · obtain ⟨hregs, _, _, hpc⟩ := ruleFaults_none_iff.mp hnone
    refine ⟨i, hf, ?_⟩
    rw [← word_of_fetchInstr hf, ← nops_eq_wordFields]
    cases hu : i.unit with
    | pcm => exact .inr ⟨rfl, datapath_pcmTarget hu hregs⟩
    | alu => exact .inl ⟨nofun, datapath_pc_seq (.inl hu) hpc⟩
    | misc => exact .inl ⟨nofun, datapath_pc_seq (.inr hu) hpc⟩
    | loop =>
      rw [datapath_run, halt_of_unit hu] at ht
      cases ht

/-- R17: a push, spoken of by the addresses below and above the new SP. -/
theorem PushesByte.at_new_sp {v : Byte} {s t : State} (h : PushesByte v s t) :
    t.sp.toNat + 1 = s.sp.toNat ∧ (∀ a, a + 1 ≠ s.sp.toNat → t.byte a = s.byte a) ∧ t.byte t.sp.toNat = v := by
  obtain ⟨hsp, hmem, _⟩ := h
  obtain ⟨hstored, hkept⟩ := hmem t.sp.toNat (by rw [pushAddr]; omega)
  exact ⟨hsp, fun a ha => hkept a (by omega), hstored⟩

/-- Settles O49: only PUSH and CALL assert `mem_we`, which stores at the new SP; only they, POP and RET move SP. -/
theorem memoryChangesOnlyBelowTheStackPointer : Obligations.MemoryChangesOnlyBelowTheStackPointer := by
  intro s t hwf hstep
  rcases step_cases hstep with ⟨c, rfl⟩ | ⟨i, hf, hnone, rfl⟩
  · exact .inl ⟨rfl, memKept_takeFault c s⟩
  obtain ⟨hregs, _, hst, hpc⟩ := ruleFaults_none_iff.mp hnone
  cases i with
  | push a =>
    have ha := eq_regByte_ofNat (hregs a (List.mem_singleton_self a))
    have hpush : PushesByte (s.port a) s (datapath 0#8 (.push a) s) :=
      pushesByte_setByte _ (s.pc + 2#8) hwf (of_decide_eq_false hst)
    obtain ⟨hsp, hkept, hstored⟩ := hpush.at_new_sp
    exact .inr (.inl ⟨hsp, hkept, _, .inl ⟨ha ▸ hf, hstored⟩⟩)
  | call a =>
    have ha := eq_regByte_ofNat (hregs a (List.mem_singleton_self a))
    have hpush : PushesByte (s.pc + 2#8) s (datapath 0#8 (.call a) s) :=
      pushesByte_setByte _ (s.port a) hwf (of_decide_eq_false hst)
    obtain ⟨hsp, hkept, hstored⟩ := hpush.at_new_sp
    have hret : (s.pc + 2#8).toNat = s.pc.toNat + 2 := toNat_pc_add (Nat.not_lt.mp (of_decide_eq_false hpc))
    exact .inr (.inl ⟨hsp, hkept, _, .inr ⟨ha ▸ hf, hstored ▸ hret⟩⟩)
  | ret =>
    have hsp : s.sp ≠ 255#8 := of_decide_eq_false hst
    exact .inr (.inr ⟨(toNat_add_one hsp).1, fun _ => rfl, .inl hf⟩)
  | pop a =>
    have hsp : s.sp ≠ 255#8 := of_decide_eq_false hst
    have ha := eq_regByte_ofNat (hregs a (List.mem_singleton_self a))
    exact .inr (.inr ⟨(toNat_add_one hsp).1, fun _ => rfl, .inr ⟨_, ha ▸ hf⟩⟩)
  | _ => exact .inl ⟨rfl, fun _ => rfl⟩

/-- Settles O48: a fault changes RUN only; of a commit, each unit's columns, instruction by instruction. -/
theorem unitsChangeOnlyTheirState : Obligations.UnitsChangeOnlyTheirState := by
  intro i s t h
  rcases exec_cases h with ⟨c, rfl⟩ | ⟨hnone, rfl⟩
  · refine ⟨fun _ => ?_, fun _ => ?_, fun _ => ?_, fun hu => ?_⟩
    · exact ⟨fun _ hr => absurd rfl hr, fun hfl => absurd rfl hfl, memKept_takeFault c s, rfl, rfl, fun hpc => absurd rfl hpc,
        .inr ⟨c, rfl⟩⟩
    · exact ⟨fun _ => rfl, rfl, fun _ ha => absurd rfl ha, fun hsp => absurd rfl hsp, rfl, .inr ⟨c, rfl⟩⟩
    · exact ⟨fun _ hr => absurd rfl hr, rfl, fun _ ha => absurd rfl ha, fun hsp => absurd rfl hsp, fun hout => absurd rfl hout,
        fun hpc => absurd rfl hpc, .inr ⟨c, rfl⟩⟩
    · cases i with
      | hlt => cases h
      | _ => cases hu
  obtain ⟨hregs, _, _, hpc⟩ := ruleFaults_none_iff.mp hnone
  cases i with
  | add a | sub a | mul a | div a | mod a | inc a | dec a | and a | not a | or a | xor a | shl a | shr a =>
    refine ⟨fun _ => ⟨fun r hr => ⟨congrArg some ?_, by simp⟩, fun hfl => absurd rfl hfl, fun _ => rfl, rfl, rfl,
      fun _ => datapath_pc_seq (.inl rfl) hpc, .inl rfl⟩, nofun, nofun, nofun⟩
    exact operandA_of_reg_changed rfl (hregs a (by simp [Instr.regOperands])) hr
  | cmp a b =>
    exact ⟨fun _ => ⟨fun _ hr => absurd rfl hr, fun _ => ⟨a, b, rfl⟩, fun _ => rfl, rfl, rfl,
      fun _ => datapath_pc_seq (.inl rfl) hpc, .inl rfl⟩, nofun, nofun, nofun⟩
  | call a =>
    exact ⟨nofun, fun _ => ⟨fun _ => rfl, rfl, fun _ _ => ⟨a, rfl⟩, fun _ => .inr ⟨a, rfl⟩, rfl, .inl rfl⟩, nofun, nofun⟩
  | ret =>
    exact ⟨nofun, fun _ => ⟨fun _ => rfl, rfl, fun _ ha => absurd rfl ha, fun _ => .inl rfl, rfl, .inl rfl⟩, nofun, nofun⟩
  | jmp | jeq | jne | jgt | jlt | jle | jge =>
    exact ⟨nofun, fun _ => ⟨fun _ => rfl, rfl, fun _ ha => absurd rfl ha, fun hsp => absurd rfl hsp, rfl, .inl rfl⟩,
      nofun, nofun⟩
  | nop =>
    exact ⟨nofun, nofun, fun _ => ⟨fun _ hr => absurd rfl hr, rfl, fun _ ha => absurd rfl ha, fun hsp => absurd rfl hsp,
      fun hout => absurd rfl hout, fun _ => datapath_pc_seq (.inr rfl) hpc, .inl rfl⟩, nofun⟩
  | ldi a imm =>
    refine ⟨nofun, nofun, fun _ => ⟨fun r hr => .inr ⟨imm, ?_⟩, rfl, fun _ ha => absurd rfl ha, fun hsp => absurd rfl hsp,
      fun hout => absurd rfl hout, fun _ => datapath_pc_seq (.inr rfl) hpc, .inl rfl⟩, nofun⟩
    exact congrArg (Instr.ldi · imm) (operandA_of_reg_changed rfl (hregs a (List.mem_singleton_self a)) hr)
  | push a =>
    exact ⟨nofun, nofun, fun _ => ⟨fun _ hr => absurd rfl hr, rfl, fun _ _ => ⟨a, rfl⟩, fun _ => ⟨a, .inl rfl⟩,
      fun hout => absurd rfl hout, fun _ => datapath_pc_seq (.inr rfl) hpc, .inl rfl⟩, nofun⟩
  | pop a =>
    refine ⟨nofun, nofun, fun _ => ⟨fun r hr => .inl ?_, rfl, fun _ ha => absurd rfl ha, fun _ => ⟨a, .inr rfl⟩,
      fun hout => absurd rfl hout, fun _ => datapath_pc_seq (.inr rfl) hpc, .inl rfl⟩, nofun⟩
    exact congrArg Instr.pop (operandA_of_reg_changed rfl (hregs a (List.mem_singleton_self a)) hr)
  | prn a =>
    exact ⟨nofun, nofun, fun _ => ⟨fun _ hr => absurd rfl hr, rfl, fun _ ha => absurd rfl ha, fun hsp => absurd rfl hsp,
      fun _ => ⟨a, rfl⟩, fun _ => datapath_pc_seq (.inr rfl) hpc, .inl rfl⟩, nofun⟩
  | hlt => exact ⟨nofun, nofun, nofun, fun _ => ⟨fun _ => rfl, rfl, fun _ => rfl, rfl, rfl, rfl, rfl⟩⟩

end Sys2Proof.Claims

/-! PROOFS of the statements about memory (spec/20_memory.md R31), reset (spec/10_state.md R23), load (spec/70_reset_and_hazards.md
R151) and the placing of a table word. An image that fits is placed by `placeFrom`, so the facts about it serve both. -/

namespace Sys2Proof.Machine

/-- An address that exists is written. -/
theorem placeFrom_cons {addr : Nat} (b : Byte) (bytes : List Byte) (s : State) (h : addr < 256) :
    placeFrom addr (b :: bytes) s = placeFrom (addr + 1) bytes (s.setByte addr b) :=
  congrArg (placeFrom (addr + 1) bytes) (if_pos h)

/-- R151: an image that fits is loaded as `placeFrom` places it. -/
theorem loadFrom_eq_placeFrom {addr : Nat} {bytes : List Byte} (s : State) (h : addr + bytes.length ≤ 256) :
    loadFrom addr bytes s = .ok (placeFrom addr bytes s) := by
  induction bytes generalizing addr s with
  | nil => rfl
  | cons b bytes ih =>
    rw [List.length_cons] at h
    rw [loadFrom, memWrite_ok b s (by omega), except_bind_ok, ih _ (by omega), placeFrom_cons b _ s (by omega)]

theorem byte_placeFrom_below {addr a : Nat} (bytes : List Byte) (s : State) (h : a < addr) :
    (placeFrom addr bytes s).byte a = s.byte a := by
  induction bytes generalizing addr s with
  | nil => rfl
  | cons b bytes ih =>
    rw [placeFrom, ih _ (by omega)]
    split
    · exact State.byte_setByte_other s b (by omega)
    · rfl

theorem byte_placeFrom_above {addr a : Nat} {bytes : List Byte} (s : State) (h : addr + bytes.length ≤ a) :
    (placeFrom addr bytes s).byte a = s.byte a := by
  induction bytes generalizing addr s with
  | nil => rfl
  | cons b bytes ih =>
    rw [List.length_cons] at h
    rw [placeFrom, ih _ (by omega)]
    split
    · exact State.byte_setByte_other s b (by omega)
    · rfl

/-- Bytes that fit are read back. -/
theorem byte_placeFrom {addr k : Nat} {bytes : List Byte} {s : State} (hwf : s.mem.wf = true)
    (hfit : addr + bytes.length ≤ 256) (h : k < bytes.length) : (placeFrom addr bytes s).byte (addr + k) = bytes[k] := by
  induction bytes generalizing addr k s with
  | nil => cases h
  | cons b bytes ih =>
    rw [List.length_cons] at hfit h
    rw [placeFrom_cons _ _ _ (by omega)]
    cases k with
    | zero =>
      have hkept := byte_placeFrom_below bytes (s.setByte addr b) (Nat.lt_succ_self addr)
      exact hkept.trans (State.byte_setByte_same addr b hwf)
    | succ k =>
      have hwf' : (s.setByte addr b).mem.wf = true := Memory.poke_wf b hwf (by omega)
      have hplaced := ih (addr := addr + 1) (k := k) hwf' (by omega) (by omega)
      rw [Nat.add_assoc, Nat.add_comm 1 k] at hplaced
      exact hplaced

/-- Placing bytes keeps the canonical form. -/
theorem placeFrom_wf {addr : Nat} {s : State} (bytes : List Byte) (hwf : s.mem.wf = true) :
    (placeFrom addr bytes s).mem.wf = true := by
  induction bytes generalizing addr s with
  | nil => exact hwf
  | cons b bytes ih =>
    rw [placeFrom]
    split
    next haddr => exact ih (Memory.poke_wf b hwf haddr)
    next => exact ih hwf

/-- Placing bytes touches memory only. -/
theorem placeFrom_frame (addr : Nat) (bytes : List Byte) (s : State) :
    placeFrom addr bytes s = { s with mem := (placeFrom addr bytes s).mem } := by
  induction bytes generalizing addr s with
  | nil => rfl
  | cons b bytes ih =>
    rw [placeFrom, ih]
    split <;> rfl

/-- R151: an image of at most 256 bytes is placed from address 0. -/
theorem load_eq_placeFrom {image : List Byte} (s : State) (h : image.length ≤ 256) :
    s.load image = some (placeFrom 0 image s) := by
  rw [State.load, if_neg (Nat.not_lt.mpr h), loadFrom_eq_placeFrom s (by omega)]

end Sys2Proof.Machine

namespace Sys2Proof.Claims

open Sys2Proof.Machine

/-- Settles O9. -/
theorem resetLeavesTheStatedValues : Obligations.ResetLeavesTheStatedValues :=
  ⟨fun r => by simp [State.reg, State.reset], rfl, rfl, rfl, rfl, Memory.peek_nil, rfl⟩

/-- Settles O10. -/
theorem resetMeetsTheInvariant : Obligations.ResetMeetsTheInvariant :=
  (inv_iff State.reset).mpr ⟨rfl, rfl⟩

/-- Settles O12. -/
theorem loadPlacesTheImage : Obligations.LoadPlacesTheImage := by
  intro image s hinv
  obtain ⟨hwf, hfl⟩ := (inv_iff s).mp hinv
  refine ⟨fun h => if_pos h, fun h => ⟨placeFrom 0 image s, load_eq_placeFrom s h, fun k hk => ?_, fun a ha => ?_, ?_⟩⟩
  · have hplaced := byte_placeFrom (addr := 0) hwf (by omega) hk
    rwa [Nat.zero_add] at hplaced
  · exact byte_placeFrom_above s (by omega)
  · have hinv' : (placeFrom 0 image s).inv = true := (inv_iff _).mpr ⟨placeFrom_wf image hwf, by rw [placeFrom_frame, hfl]⟩
    refine ⟨?_, ?_, ?_, ?_, ?_, ?_, hinv'⟩ <;> rw [placeFrom_frame]

/-- Three bytes placed at PC, with room for them, are the bytes at PC. -/
theorem bytesAtPc_placeFrom {s : State} (x y z : Byte) (hwf : s.mem.wf = true) (hpc : s.pc.toNat ≤ 253) :
    bytesAtPc (placeFrom s.pc.toNat [x, y, z] s) = [x, y, z] := by
  have hbyte {k : Nat} (h : k < 3) := byte_placeFrom (bytes := [x, y, z]) hwf (show s.pc.toNat + 3 ≤ 256 by omega) h
  have hpc' : (placeFrom s.pc.toNat [x, y, z] s).pc = s.pc := by rw [placeFrom_frame]
  rw [bytesAtPc_eq, operandBytesAtPc, hpc', if_pos (by omega), hbyte (k := 1) (by omega), hbyte (k := 2) (by omega)]
  exact congrArg (· :: [y, z]) (hbyte (k := 0) (by omega))

/-- Settles O13: the bytes at PC are the table word's, so O5 applies. -/
theorem placedWordRunsNext : Obligations.PlacedWordRunsNext := by
  intro s nbits w i hinv hrun hpc hdec
  obtain ⟨hwf, _⟩ := (inv_iff s).mp hinv
  have hbytes : bytesAtPc (s.withFetchWord nbits w) = tableBytes nbits w := bytesAtPc_placeFrom _ _ _ hwf hpc
  have hrun' : (s.withFetchWord nbits w).run = .running := by rw [State.withFetchWord, placeFrom_frame, hrun]
  unfold decodeTableWord at hdec
  split at hdec
  next hok =>
    cases hdec
    exact stepRunsTheDecodedInstruction _ _ _ hrun' (hbytes ▸ hok)
  next => cases hdec

/-- Settles O16. -/
theorem memoryPrimitivesCheckAndAccess : Obligations.MemoryPrimitivesCheckAndAccess := by
  intro addr v s hwf
  refine ⟨fun h => ⟨if_pos h, if_pos h⟩, ?_⟩
  rintro a rfl ha
  refine ⟨memRead_ok s ha, _, memWrite_ok v s ha, ?_, fun b hb => State.byte_setByte_other s v hb, rfl,
    Memory.poke_wf v hwf (by omega)⟩
  rw [memRead_ok _ ha, State.byte_setByte_same a v hwf]

/-- Settles O17: above the 256 cells a canonical memory lists nothing. -/
theorem canonicalMemoriesWithEqualCellsAreEqual : Obligations.CanonicalMemoriesWithEqualCellsAreEqual := by
  intro s t hs ht h
  refine Memory.ext hs ht fun a => ?_
  by_cases ha : a < 256
  · exact h a ha
  · rw [Memory.peek_outside hs (by omega), Memory.peek_outside ht (by omega)]

end Sys2Proof.Claims

/-! PROOFS of the statements about runs: how a run ends (spec/44_loop_and_halt.md R119), and the run through zero bytes
(spec/70_reset_and_hazards.md R155). -/

namespace Sys2Proof.Machine

/-! `runFor`, by whether there is a step. -/

theorem runFor_succ {s t : State} (n : Nat) (h : step s = .next t) : runFor (n + 1) s = runFor n t := by
  rw [runFor, h]

theorem runFor_noStep {s : State} (n : Nat) (h : ∀ t, step s ≠ .next t) : runFor n s = s := by
  cases n with
  | zero => rfl
  | succ n =>
    rw [runFor]
    split
    next t ht => exact absurd ht (h t)
    next => rfl
    next => rfl

theorem runFor_stopped {s : State} (n : Nat) (h : s.run ≠ .running) : runFor n s = s :=
  runFor_noStep n fun _ ht => h (step_inv ht).1

/-- A run goes on from where it is. -/
theorem runFor_add (m n : Nat) (s : State) : runFor (m + n) s = runFor n (runFor m s) := by
  induction m generalizing s with
  | zero => rw [Nat.zero_add, runFor]
  | succ m ih =>
    by_cases hrun : s.run = .running
    · obtain ⟨t, ht⟩ := step_of_running hrun
      rw [Nat.succ_add, runFor_succ _ ht, runFor_succ _ ht, ih]
    · rw [runFor_stopped _ hrun, runFor_stopped _ hrun, runFor_stopped _ hrun]

/-- Once a run has stopped it stays where it is. -/
theorem runFor_of_le {m n : Nat} {s : State} (h : (runFor m s).run ≠ .running) (hle : m ≤ n) :
    runFor n s = runFor m s := by
  obtain ⟨k, rfl⟩ := Nat.exists_eq_add_of_le hle
  rw [runFor_add, runFor_stopped k h]

/-- A run stops in one state only. -/
theorem runFor_stopped_unique {m n : Nat} {s : State} (hm : (runFor m s).run ≠ .running)
    (hn : (runFor n s).run ≠ .running) : runFor m s = runFor n s := by
  rcases Nat.le_total m n with hle | hle
  · exact (runFor_of_le hm hle).symm
  · exact runFor_of_le hn hle

theorem State.final.not_running {s : State} (h : s.final) : s.run ≠ .running := by
  rw [State.final] at h
  simp [h]

theorem State.failed.not_running {s : State} (h : s.failed) : s.run ≠ .running := by
  obtain ⟨c, hc⟩ := h
  simp [hc]

end Sys2Proof.Machine

namespace Sys2Proof.Claims

open Sys2Proof.Machine

/-- Settles O50: RUN has three kinds of value, HALTED and FAULTED are left by no step, and a run stops in one state only. -/
theorem runEndsInExactlyOneOfThreeWays : Obligations.RunEndsInExactlyOneOfThreeWays := by
  intro s
  refine ⟨?_, ?_, ?_, ?_⟩
  · by_cases h : RunNeverEnds s
    · exact .inr (.inr h)
    · obtain ⟨n, hn⟩ := not_forall.mp h
      cases hrun : (runFor n s).run with
      | running => exact absurd hrun hn
      | halted => exact .inl ⟨n, hrun⟩
      | faulted c => exact .inr (.inl ⟨n, c, hrun⟩)
  · rintro ⟨⟨m, hm⟩, ⟨n, hn⟩⟩
    have hsame := runFor_stopped_unique hm.not_running hn.not_running
    obtain ⟨c, hc⟩ := hn
    rw [← hsame, hm] at hc
    cases hc
  · rintro ⟨⟨m, hm⟩, hrun⟩
    exact hm.not_running (hrun m)
  · rintro ⟨⟨n, hn⟩, hrun⟩
    exact hn.not_running (hrun n)

end Sys2Proof.Claims

namespace Sys2Proof.Machine

/-- R155: a zero byte is NOP. -/
theorem step_zeroByte {s : State} (hrun : s.run = .running) (h : s.byte s.pc.toNat = 0#8) : step s = exec .nop s := by
  refine step_fetched hrun ?_
  rw [fetchInstr_eq, h]
  rfl

/-- R106: NOP below the top of memory. -/
theorem exec_nop_ok {s : State} (h : s.pc.toNat + 1 ≤ 255) : exec .nop s = .next (s.setPc (s.pc + 1#8)) :=
  congrArg (settle s) (nopOp_ok h)

/-- R155: as long as zero bytes lie below the top of memory, only PC moves. -/
theorem runFor_zeroBytes {s : State} {n : Nat} (hrun : s.run = .running)
    (h : ∀ a, s.pc.toNat ≤ a → a ≤ 255 → s.byte a = 0#8) (hn : s.pc.toNat + n ≤ 255) :
    runFor n s = s.setPc (s.pc + BitVec.ofNat 8 n) := by
  induction n generalizing s with
  | zero =>
    rw [runFor, BitVec.add_zero]
    rfl
  | succ n ih =>
    have hpc : (s.pc + 1#8).toNat = s.pc.toNat + 1 := toNat_pc_add (by omega)
    have hstep : step s = .next (s.setPc (s.pc + 1#8)) := by
      rw [step_zeroByte hrun (h _ le_rfl (by omega)), exec_nop_ok (by omega)]
    have hslide := ih (s := s.setPc (s.pc + 1#8)) hrun (fun a ha => h a (by rw [State.setPc_pc] at ha; omega))
      (by rw [State.setPc_pc]; omega)
    rw [runFor_succ n hstep, hslide, State.setPc_pc, BitVec.add_assoc, Nat.add_comm n 1, BitVec.ofNat_add]
    rfl

end Sys2Proof.Machine

namespace Sys2Proof.Claims

open Sys2Proof.Machine

/-- Settles O51: the slide to 255, and there the NOP whose successor address is 256 (O44). -/
theorem zeroBytesSlideToAddressingError : Obligations.ZeroBytesSlideToAddressingError := by
  intro s hrun h
  refine ⟨fun n hn => runFor_zeroBytes hrun h hn, ?_⟩
  have hlt := s.pc.isLt
  have htop : s.pc + BitVec.ofNat 8 (255 - s.pc.toNat) = 255#8 := by
    apply BitVec.eq_of_toNat_eq
    rw [toNat_pc_add (by omega)]
    exact Nat.add_sub_of_le (by omega)
  have hfault : step (s.setPc 255#8) = .next { s with pc := 255#8, run := .faulted .addressingError } := by
    rw [step_zeroByte (s := s.setPc 255#8) hrun (h 255 (by omega) le_rfl)]
    exact exec_late (not_dividesByZero_of_divides rfl _) (.inr rfl)
  rw [show 256 - s.pc.toNat = 255 - s.pc.toNat + 1 by omega, runFor_add, runFor_zeroBytes hrun h (by omega), htop,
    runFor_succ 0 hfault, runFor]

end Sys2Proof.Claims

/-! PROOFS of the statement about the read columns (spec/44_loop_and_halt.md R121). Where a column is clear the commit does not name
the port; where it is set, two values on the port are told apart by the field that the instruction writes. -/

namespace Sys2Proof.Machine

theorem commit_reg_aluResult {i : Instr} (h : (signals i).regWe = some .aluResult) (xa xb v : Byte) (s : State) :
    (commit i xa xb v s).reg (Fin.ofNat 8 (operandA i).toNat) = aluOutput i xa xb := by
  rw [commit, h]
  exact State.reg_setReg_same s _ _

/-- Two outputs of the ALU are two commits. -/
theorem commit_ne_of_aluOutput_ne {i : Instr} {xa xb xa' xb' : Byte} (h : (signals i).regWe = some .aluResult)
    (hne : aluOutput i xa xb ≠ aluOutput i xa' xb') (v : Byte) (s : State) :
    commit i xa xb v s ≠ commit i xa' xb' v s := by
  rw [← commit_reg_aluResult h xa xb v s, ← commit_reg_aluResult h xa' xb' v s] at hne
  exact ne_of_apply_ne (State.reg · _) hne

/-- Every operation of the ALU that writes a register depends on its first operand: with 2 as the second, 0 and 255 differ. -/
theorem aluOutput_left_ne {i : Instr} (h : (signals i).regWe = some .aluResult) :
    aluOutput i 0#8 2#8 ≠ aluOutput i 255#8 2#8 := by
  cases i with
  | add | sub | mul | div | mod | inc | dec | and | not | or | xor | shl | shr =>
    simp only [aluOutput]
    decide
  | _ => cases h

/-- Every operation of the ALU with two operands that writes a register depends on its second: with 5 as the first, 1 and 2
differ. -/
theorem aluOutput_right_ne {i : Instr} (h : (signals i).regWe = some .aluResult) (hb : (signals i).readB = true) :
    aluOutput i 5#8 1#8 ≠ aluOutput i 5#8 2#8 := by
  cases i with
  | add | sub | mul | div | mod | and | or | xor | shl | shr =>
    simp only [aluOutput]
    decide
  | inc | dec | not => cases hb
  | _ => cases h

/-! Column `x[a]`. -/

theorem commit_readA_clear {i : Instr} (h : (signals i).readA = false) (x x' xb v : Byte) (s : State) :
    commit i x xb v s = commit i x' xb v s := by
  cases i with
  | ret | nop | hlt | ldi | pop => rfl
  | _ => cases h

theorem commit_readA_set {i : Instr} (h : (signals i).readA = true) :
    ∃ (s : State) (x x' xb v : Byte), commit i x xb v s ≠ commit i x' xb v s := by
  cases i with
  | add | sub | mul | div | mod | inc | dec | and | not | or | xor | shl | shr =>
    exact ⟨State.reset, 0#8, 255#8, 2#8, 0#8, commit_ne_of_aluOutput_ne rfl (aluOutput_left_ne rfl) 0#8 State.reset⟩
  | cmp =>
    exact ⟨State.reset, 0#8, 255#8, 2#8, 0#8,
      ne_of_apply_ne State.fl (show compareFlags 0#8 2#8 ≠ compareFlags 255#8 2#8 by decide)⟩
  | call | jmp | jne =>
    exact ⟨State.reset, 0#8, 255#8, 0#8, 0#8, ne_of_apply_ne State.pc (show (0#8 : Byte) ≠ 255#8 by decide)⟩
  | jeq | jgt | jlt | jle | jge =>
    exact ⟨State.reset.setFl 0b111#8, 0#8, 255#8, 0#8, 0#8, ne_of_apply_ne State.pc (show (0#8 : Byte) ≠ 255#8 by decide)⟩
  | push =>
    exact ⟨State.reset, 0#8, 255#8, 0#8, 0#8,
      ne_of_apply_ne State.mem (show Memory.poke [] 254 0#8 ≠ Memory.poke [] 254 255#8 by decide)⟩
  | prn => exact ⟨State.reset, 0#8, 255#8, 0#8, 0#8, ne_of_apply_ne State.out (show [0#8] ≠ [255#8] by decide)⟩
  | ret | nop | hlt | ldi | pop => cases h

/-! Column `x[b]`. -/

theorem commit_readB_clear {i : Instr} (h : (signals i).readB = false) (xa x x' v : Byte) (s : State) :
    commit i xa x v s = commit i xa x' v s := by
  cases i with
  | add | sub | mul | div | mod | cmp | and | or | xor | shl | shr => cases h
  | _ => rfl

theorem commit_readB_set {i : Instr} (h : (signals i).readB = true) :
    ∃ (s : State) (xa x x' v : Byte), commit i xa x v s ≠ commit i xa x' v s := by
  cases i with
  | add | sub | mul | div | mod | and | or | xor | shl | shr =>
    exact ⟨State.reset, 5#8, 1#8, 2#8, 0#8, commit_ne_of_aluOutput_ne rfl (aluOutput_right_ne rfl rfl) 0#8 State.reset⟩
  | cmp =>
    exact ⟨State.reset, 1#8, 1#8, 2#8, 0#8,
      ne_of_apply_ne State.fl (show compareFlags 1#8 1#8 ≠ compareFlags 1#8 2#8 by decide)⟩
  | _ => cases h

/-! Column `mem_re`. -/

theorem commit_memRe_clear {i : Instr} (h : (signals i).memRe = false) (xa xb v v' : Byte) (s : State) :
    commit i xa xb v s = commit i xa xb v' s := by
  cases i with
  | ret | pop => cases h
  | _ => rfl

theorem commit_pop_reg (a xa xb v : Byte) (s : State) : (commit (.pop a) xa xb v s).reg (Fin.ofNat 8 a.toNat) = v :=
  State.reg_setReg_same s _ _

theorem commit_memRe_set {i : Instr} (h : (signals i).memRe = true) :
    ∃ (s : State) (xa xb v v' : Byte), commit i xa xb v s ≠ commit i xa xb v' s := by
  cases i with
  | ret => exact ⟨State.reset, 0#8, 0#8, 0#8, 255#8, ne_of_apply_ne State.pc (show (0#8 : Byte) ≠ 255#8 by decide)⟩
  | pop a =>
    refine ⟨State.reset, 0#8, 0#8, 0#8, 255#8, ne_of_apply_ne (State.reg · (Fin.ofNat 8 a.toNat)) ?_⟩
    rw [commit_pop_reg, commit_pop_reg]
    decide
  | _ => cases h

end Sys2Proof.Machine

namespace Sys2Proof.Claims

open Sys2Proof.Machine

/-- Settles O53. -/
theorem readColumnsAreExact : Obligations.ReadColumnsAreExact := by
  refine fun i => ⟨⟨commit_readA_set, ?_⟩, ⟨commit_readB_set, ?_⟩, ⟨commit_memRe_set, ?_⟩⟩
  · rintro ⟨s, x, x', xb, v, hne⟩
    by_contra h
    exact hne (commit_readA_clear (Bool.eq_false_of_not_eq_true h) x x' xb v s)
  · rintro ⟨s, xa, x, x', v, hne⟩
    by_contra h
    exact hne (commit_readB_clear (Bool.eq_false_of_not_eq_true h) xa x x' v s)
  · rintro ⟨s, xa, xb, v, v', hne⟩
    by_contra h
    exact hne (commit_memRe_clear (Bool.eq_false_of_not_eq_true h) xa xb v v' s)

end Sys2Proof.Claims
